-- ==== Sys2Proof/Word.lean ====
section
/-! DEFINITION. The word types of the block and their plainest arithmetic: a byte of the reading buffer (R27), an event word
(R71) and the index of a buffer byte (R50). Bit 0 is the least significant bit and every value is unsigned (R8). -/

namespace Sys2Proof

/-- One byte of the reading buffer (R27). -/
abbrev Byte := BitVec 8

/-- One event word, always 16 bits (R71). -/
abbrev EventWord := BitVec 16

/-- `BUF_LEN` = 15 (R7). -/
def bufLen : Nat := 15

/-- The index of a buffer byte, 0..14, so `BUF_LEN` of them; index 15 does not exist (R50). -/
abbrev BufIdx := Fin 15

/-- `NUM_DIGITS` = 6 (R7). -/
def numDigits : Nat := 6

/-- `DATA_BITS` = 7 (R7). -/
def dataBits : Nat := 7

/-- `FRAME_BITS` = `DATA_BITS` + 2 = 9 (R7). -/
def frameBits : Nat := dataBits + 2

/-- `TICKS_PER_CHAR` = `FRAME_BITS` + 1 = 10 (R7). -/
def ticksPerChar : Nat := frameBits + 1

end Sys2Proof
end

