-- ==== Sys2Proof/Config.lean ====
section
/-! DEFINITION. What is fixed for one machine: the named parameters of R6 that have a default (plain data, the record `Config`,
which a state carries and no step writes) and those the spec leaves OPEN (opaque constants: nothing can evaluate them). -/

namespace Sys2Proof

/-- What is sent when no pass completed (R6 `P_STALE_POLICY`, R164). -/
inductive StalePolicy where
  | transmitBuffer
  | transmitNothing
  deriving DecidableEq, Repr

/-- `P_NONBCD_CHAR` as plain data: the byte printed for each digit value 10..15 (R6, R118). -/
structure NonBcdChars where
  c10 : Byte
  c11 : Byte
  c12 : Byte
  c13 : Byte
  c14 : Byte
  c15 : Byte
  deriving DecidableEq, Repr

/-- The named parameters of R6 that have a default. DESIGN CHOICE (log 3): a model "takes each of these as an argument", so a
state carries them and a statement for every state holds for every value of them. -/
structure Config where
  /-- `P_BAUD`, bit/s, positive; no rule depends on it (R6, R233). -/
  baud : Nat
  /-- `P_TX_SEND_NUL` (R6, R164). -/
  txSendNul : Bool
  /-- `P_STALE_POLICY` (R6, R164). -/
  stalePolicy : StalePolicy
  /-- `P_RESET_CLEARS_BUFFER` (R6, R117). -/
  resetClearsBuffer : Bool
  /-- `P_BUF_INIT` (R6, R27). -/
  bufInit : Byte
  /-- `P_NONBCD_CHAR` (R6, R118). -/
  nonBcd : NonBcdChars
  /-- How many bits the transmitter register has above bit 8: `P_TX_REG_WIDTH` is 9 plus this, so it is never below 9 (R6). -/
  txRegPad : Nat
  deriving DecidableEq, Repr

/-- `P_TX_REG_WIDTH` >= 9 (R6, R28). -/
def Config.txRegWidth (c : Config) : Nat := 9 + c.txRegPad

/-- The defaults of R6. -/
def Config.default : Config where
  baud := 19200
  txSendNul := true
  stalePolicy := .transmitBuffer
  resetClearsBuffer := true
  bufInit := 0x00
  nonBcd := { c10 := 0x3A, c11 := 0x3B, c12 := 0x3C, c13 := 0x3D, c14 := 0x3E, c15 := 0x3F }
  txRegPad := 0

/-- R6: `P_BAUD` is a positive integer. -/
def Config.wf (c : Config) : Bool := 0 < c.baud

/-- `P_BIT_PERIOD` = 1 / `P_BAUD`, in seconds (R6, R233). -/
def Config.bitPeriod (c : Config) : Rat := 1 / c.baud

/-- The time a reading of `len` characters takes on the line: 10 periods a character (R172, R233). -/
def Config.readingTime (c : Config) (len : Nat) : Rat := (ticksPerChar * len : Nat) * c.bitPeriod

/-- Which of the spec's three models runs (R81). -/
inductive BlockModel where
  | decoderUnit
  | transmitterUnit
  | wholeBlock
  deriving DecidableEq, Repr

/-- One of the two 8-bit input ports (R100). -/
inductive Port where
  | first
  | second
  deriving DecidableEq, Repr, Inhabited

/-- A bit of an input port (R6 `P_PIN_MAP`). -/
structure PortBit where
  port : Port
  bit : Fin 8
  deriving DecidableEq, Repr, Inhabited

/-- The fifteen input lines of R31. -/
inductive Line where
  | s1 | s2 | s3 | s4 | s5 | s6
  | b0 | b1 | b2 | b3
  | dec | ovf | modeA | modeB | mup
  deriving DecidableEq, Repr

/-- `P_PIN_MAP` for the input lines, OPEN: a free value (log 8; R6, R31). -/
opaque Config.pinMap : Line → PortBit

/-- Where the output pin is: a port register and a bit of it. DESIGN CHOICE (log 8): the register is a bare number that stands in no
relation to the two input ports of `Port`, so whether the pin shares a port with an input is left open, as N1 asks, and so is the
width of the register (R50, R203). -/
structure OutputPinBit where
  register : Nat
  bit : Nat
  deriving DecidableEq, Repr, Inhabited

/-- `P_PIN_MAP` for the output pin, OPEN: a free value no rule reads (log 8; D24). -/
opaque Config.outputPin : OutputPinBit

/-- `P_LINE_POLARITY`, the active level of each input line, OPEN: a free value (log 8; R6, R31). -/
opaque Config.linePolarity : Line → Bool

/-- `P_TIMER_CLOCK`, OPEN: a free value no rule reads (log 8; R6, R202). -/
opaque Config.timerClock : Nat

/-- `P_TIMER_DIVISOR`, OPEN: a free value no rule reads (log 8; R6, R202). -/
opaque Config.timerDivisor : Nat

/-- `P_WDT_TIMEOUT`, OPEN: a free value no rule reads (log 8; R6, R207). -/
opaque Config.wdtTimeout : Nat

end Sys2Proof
end

