-- ==== Sys2Proof/Syntax.lean ====
section
/-! DEFINITION. The events of the block, one constructor per row of spec/opcode_table.json (R70, R72). -/

namespace Sys2Proof

/-- One capture of the bus at one instant (R77, R100). -/
structure Snapshot where
  /-- Strobe position, 0..6 from the signal decoder; 7 is admitted in a word (R80). -/
  pos : BitVec 3
  /-- The 4-bit digit value, 0..15. -/
  digit : BitVec 4
  /-- Decimal-point strobe asserted. -/
  dec : Bool
  /-- Overflow line asserted. -/
  ovf : Bool
  /-- Mode line A asserted. -/
  modeA : Bool
  /-- Mode line B asserted. -/
  modeB : Bool
  deriving DecidableEq, Repr

/-- The events (R72). -/
inductive Instr where
  /-- STEP: feed one snapshot to the bus decoder (R110). -/
  | step (x : Snapshot)
  /-- DRST: decoder reset (R117). -/
  | drst
  /-- TXB: transmitter `begin(character)` (R140). -/
  | txb (c : Byte)
  /-- TXN: transmitter `next_bit()` (R142, R143). -/
  | txn
  /-- WAKE: main-loop wake with the sampled MUP level and snapshot (R161, R162, R163). -/
  | wake (mup : Bool) (x : Snapshot)
  /-- TICK: one elapsed period of the bit-rate timer (R167). -/
  | tick
  /-- SRST: system reset (R221). -/
  | srst
  /-- (reserved): a word of kind 111 with its 13 low bits, refused in every model (R79). -/
  | reserved (payload : BitVec 13)
  deriving DecidableEq, Repr

/-- The mnemonic of an event as spec/opcode_table.json spells it. -/
def Instr.mnemonic : Instr → String
  | .step _ => "STEP"
  | .drst => "DRST"
  | .txb _ => "TXB"
  | .txn => "TXN"
  | .wake _ _ => "WAKE"
  | .tick => "TICK"
  | .srst => "SRST"
  | .reserved _ => "(reserved)"

end Sys2Proof
end

