-- ==== Sys2Proof/WellFormed.lean ====
section
/-! DEFINITION. What makes a parameter record and an event well-formed. Every operand of an event already has exactly the width its
field has (R73 to R77), and positions 7 and digits 10..15 are admitted (R80), so the one check on an event is that its word is not
reserved (R79). The one check on the parameters that their types do not make is that the bit rate is positive (R6): `Config.wf`. -/

namespace Sys2Proof

/-- An event is well-formed when some model has a step for its kind: every kind but the reserved one (R72, R79). -/
def Instr.WellFormed : Instr → Bool
  | .step _ => true
  | .drst => true
  | .txb _ => true
  | .txn => true
  | .wake _ _ => true
  | .tick => true
  | .srst => true
  | .reserved _ => false

end Sys2Proof
end

