-- ==== Sys2Proof/Decode.lean ====
section
/-! DEFINITION. Decoding an event word (R71 to R79, R84), total on every 16-bit word and refusing by name, and after it the encoder,
written from the same formats. The event word is the spec's modelling interface, no register of the hardware (R70); a word is 16
bits and has no byte order (R55). -/

namespace Sys2Proof

/-- Why a word is no event (R79): a bit its format reserves is 1. The name is the mnemonic of the word's kind. -/
inductive DecodeError where
  | reservedBits (mnemonic : String)
  deriving DecidableEq, Repr

/-- One row of spec/opcode_table.json. -/
structure OpRow where
  mnemonic : String
  pattern : EventWord
  mask : EventWord
  deriving DecidableEq, Repr

/-- The row of STEP in spec/opcode_table.json. -/
def rowStep : OpRow := { mnemonic := "STEP", pattern := 0x0000, mask := 0xF800 }

/-- The row of DRST in spec/opcode_table.json. -/
def rowDrst : OpRow := { mnemonic := "DRST", pattern := 0x2000, mask := 0xFFFF }

/-- The row of TXB in spec/opcode_table.json. -/
def rowTxb : OpRow := { mnemonic := "TXB", pattern := 0x4000, mask := 0xFF00 }

/-- The row of TXN in spec/opcode_table.json. -/
def rowTxn : OpRow := { mnemonic := "TXN", pattern := 0x6000, mask := 0xFFFF }

/-- The row of WAKE in spec/opcode_table.json. -/
def rowWake : OpRow := { mnemonic := "WAKE", pattern := 0x8000, mask := 0xF000 }

/-- The row of TICK in spec/opcode_table.json. -/
def rowTick : OpRow := { mnemonic := "TICK", pattern := 0xA000, mask := 0xFFFF }

/-- The row of SRST in spec/opcode_table.json. -/
def rowSrst : OpRow := { mnemonic := "SRST", pattern := 0xC000, mask := 0xFFFF }

/-- The row of (reserved) in spec/opcode_table.json. -/
def rowReserved : OpRow := { mnemonic := "(reserved)", pattern := 0xE000, mask := 0xE000 }

/-- spec/opcode_table.json in the order of the kinds (R72). -/
def opTable : List OpRow :=
  [rowStep, rowDrst, rowTxb, rowTxn, rowWake, rowTick, rowSrst, rowReserved]

/-- A word has a row's pattern under the row's mask (R84). -/
def OpRow.matches (r : OpRow) (w : EventWord) : Bool := w &&& r.mask == r.pattern

/-- The snapshot in bits [10:0] of a word (R77). -/
def unpackSnapshot (w : EventWord) : Snapshot where
  pos := w.extractLsb' 0 3
  digit := w.extractLsb' 3 4
  dec := w.getLsbD 7
  ovf := w.getLsbD 8
  modeA := w.getLsbD 9
  modeB := w.getLsbD 10

/-- The operation of one kind once the word has its row's pattern: the kind alone selects it (R71, R72, R84 (4)). -/
def decodeKind (w : EventWord) : Nat → Instr
  | 0 => .step (unpackSnapshot w)
  | 1 => .drst
  | 2 => .txb (w.extractLsb' 0 8)
  | 3 => .txn
  | 4 => .wake (w.getLsbD 11) (unpackSnapshot w)
  | 5 => .tick
  | 6 => .srst
  | _ => .reserved (w.extractLsb' 0 13)

/-- R84 (1), (2), (4): look up the kind in bits [15:13], hold the word against that kind's row, extract the fields. A word of kind
111 decodes to the event `reserved`, whose meaning is the refusal of R79 (log 17). -/
def decode (w : EventWord) : Except DecodeError Instr :=
  let kind := (w.extractLsb' 13 3).toNat
  match opTable[kind]? with
  | some row => if row.matches w then .ok (decodeKind w kind) else .error (.reservedBits row.mnemonic)
  | none => .error (.reservedBits "(none)")

/-- The event in an instruction of `nbits` bits whose bits are `w`, numbered as spec/opcode_table.json numbers them: the bits above
`nbits` are 0, and an event word has 16 bits. -/
def decodeTableWord (nbits w : Nat) : Option Instr :=
  let v := w % 2 ^ nbits
  if v < 2 ^ 16 then (decode (BitVec.ofNat 16 v)).toOption else none

/-- The 11 bits of a snapshot (R77). -/
def packSnapshot (x : Snapshot) : BitVec 11 :=
  BitVec.ofBool x.modeB ++ BitVec.ofBool x.modeA ++ BitVec.ofBool x.ovf ++ BitVec.ofBool x.dec ++ x.digit ++ x.pos

/-- The word of an event (R73 to R76). -/
def encode : Instr → EventWord
  | .step x => 0b00000#5 ++ packSnapshot x
  | .drst => 0x2000
  | .txb c => 0b01000000#8 ++ c
  | .txn => 0x6000
  | .wake mup x => 0b1000#4 ++ BitVec.ofBool mup ++ packSnapshot x
  | .tick => 0xA000
  | .srst => 0xC000
  | .reserved p => 0b111#3 ++ p

/-- The row of an event in the opcode table. -/
def Instr.row : Instr → OpRow
  | .step _ => rowStep
  | .drst => rowDrst
  | .txb _ => rowTxb
  | .txn => rowTxn
  | .wake _ _ => rowWake
  | .tick => rowTick
  | .srst => rowSrst
  | .reserved _ => rowReserved

end Sys2Proof
end

