-- ==== Sys2Proof/Machine/State.lean ====
section
/-! DEFINITION. The state of the block: the tuple of R33, the model-only bit `refused`, and four fields of the model's own (the
parameters, which of the three models of R81 runs, the offers of the environment, the value the last event returned). Plain data. -/

namespace Sys2Proof.Machine

/-- The eight states of the bus decoder (R23, R24; log 12). -/
inductive DState where
  | overflowUnit
  | digit1
  | digit2
  | digit3
  | digit4
  | digit5
  | digit6
  | init
  deriving DecidableEq, Repr

/-- The phases of the scheduler (R29, R160); code 3 is never written and has no constructor (log 12). -/
inductive Phase where
  | idle
  | capturing
  | transmitting
  deriving DecidableEq, Repr

/-- What the environment may offer between two events (R235, R237): an event word, or a bus wake given by the levels of the two
input ports at one instant, which the signal decoder maps to the event (R100, R105; log 9). -/
inductive Offer where
  | word (w : EventWord)
  | sample (first second : BitVec 8)
  deriving DecidableEq, Repr

/-- The reading buffer: the cells (index, byte) whose byte differs from `P_BUF_INIT`, indices strictly rising (R27, R50; log 11). -/
abbrev Memory := List Host.Cell

/-- The canonical form of a buffer whose unlisted bytes read as `dflt`: indices strictly rise, lie in 0..14, and no cell repeats
the unlisted value. -/
abbrev Memory.wf (dflt : Byte) (m : Memory) : Prop :=
  m.Pairwise (fun x y => x.1 < y.1) ∧ ∀ c ∈ m, c.1 < 15 ∧ c.2 ≠ dflt

/-- The state. -/
structure State where
  /-- The parameters (R6); no step writes them. The model's own field (log 3). -/
  cfg : Config
  /-- Which of the three models runs (R81); no step writes it. The model's own field (log 4). -/
  model : BlockModel
  /-- State of the bus decoder (R24). -/
  dstate : DState
  /-- Decimal-point index, 0 = none (R25). -/
  dp : BitVec 3
  /-- Completion flag (R26). -/
  done : Bool
  /-- Reading buffer (R27). -/
  buf : Memory
  /-- Shift register of the transmitter, `P_TX_REG_WIDTH` bits as a number (R28; log 6). -/
  txShift : Nat
  /-- Remaining-bit counter (R28). -/
  txCount : BitVec 4
  /-- Phase of the scheduler (R29). -/
  phase : Phase
  /-- Bus-change interrupt enabled (R29, R195). -/
  busIrqEn : Bool
  /-- Bit-rate timer started (R29, R196). -/
  timerRun : Bool
  /-- Index of the character being sent (R29). -/
  ci : BitVec 4
  /-- Number of characters in the reading being sent (R29). -/
  txLen : BitVec 4
  /-- Level of the serial output pin (R29, R30, R171). -/
  txd : Bool
  /-- Model-only bit: a refused event was offered (R33, R192). -/
  refused : Bool
  /-- The offers the environment has in store, the next one first (R235, R236). The model's own field (log 1). -/
  events : List Offer
  /-- The 2-bit value the last event returned, if it returned one (R82). The model's own field (log 7). -/
  result : Option (BitVec 2)
  deriving DecidableEq, Repr

/-- Why the machine stops. -/
inductive Fault where
  /-- Raised by TICK alone, in a state with `tx_count` = 0 and `ci + 1 > tx_len`, for which R167 has no case. No state of a run is so
  (R34). SAFE: the model stops where the spec has no rule (log 10). -/
  | tickNoCase
  /-- Raised by WAKE alone, in a state that admits it in the phase `Transmitting` with MUP low, for which R161 to R163 have no case. No
  state of a run is so (R34). SAFE: the model stops where the spec has no rule (log 10). -/
  | wakeNoCase
  deriving DecidableEq, Repr

/-- Why an event has no meaning here. -/
inductive Refusal where
  /-- Raised by the arms of `exec` for an event not modelled yet; no arm is so now. SAFE. -/
  | notModelled (mnemonic : String)
  deriving DecidableEq, Repr

/-- The machine right after reset (R220), at its first wait (R223): the whole block with the default parameters and nothing
offered (DESIGN CHOICE, logs 1, 3, 4, 7). -/
def State.reset : State where
  cfg := .default
  model := .wholeBlock
  dstate := .init
  dp := 0
  done := false
  buf := []
  txShift := 0
  txCount := 0
  phase := .idle
  busIrqEn := true
  timerRun := false
  ci := 0
  txLen := 0
  txd := true
  refused := false
  events := []
  result := none

end Sys2Proof.Machine
end

