-- ==== Sys2Proof/Machine/Flags.lean ====
section
/-! DEFINITION. The status bits and what they admit. There are no condition codes and no flags of arithmetic (R22); the status bits are
`done`, `bus_irq_en` and `timer_run`. Here too: which model accepts which kind (R81), and the output pin's drive-enable (R30). -/

namespace Sys2Proof.Machine

/-- R81: which model accepts which kind of event. A reserved word is accepted by none (R79). -/
def accepts (m : BlockModel) : Instr → Bool
  | .step _ => m == .decoderUnit
  | .drst => m == .decoderUnit
  | .txb _ => m == .transmitterUnit
  | .txn => m == .transmitterUnit
  | .wake _ _ => m == .wholeBlock
  | .tick => m == .wholeBlock
  | .srst => true
  | .reserved _ => false

/-- The model that runs an event: the one given if it accepts the event, else one that does (R81). -/
def modelFor (m : BlockModel) (i : Instr) : BlockModel :=
  if accepts m i then m
  else if accepts .decoderUnit i then .decoderUnit
  else if accepts .transmitterUnit i then .transmitterUnit
  else if accepts .wholeBlock i then .wholeBlock
  else m

/-- R193: WAKE is admitted when `bus_irq_en` = 1. -/
def wakeAdmitted (s : State) : Bool := s.busIrqEn

/-- R193: TICK is admitted when `timer_run` = 1. -/
def tickAdmitted (s : State) : Bool := s.timerRun

/-- R81 and R193 together: the event has a step in this state. -/
def admitted (s : State) : Instr → Bool
  | .step x => accepts s.model (.step x)
  | .drst => accepts s.model .drst
  | .txb c => accepts s.model (.txb c)
  | .txn => accepts s.model .txn
  | .wake mup x => accepts s.model (.wake mup x) && wakeAdmitted s
  | .tick => accepts s.model .tick && tickAdmitted s
  | .srst => accepts s.model .srst
  | .reserved p => accepts s.model (.reserved p)

/-- R30: where the pin is driven open-drain, the drive-enable is NOT `txd`. -/
def txDriveLow (s : State) : Bool := !s.txd

end Sys2Proof.Machine
end

