-- ==== Sys2Proof/Machine/Operands.lean ====
section
/-! DEFINITION. What the rules compute from operands: the codes of the decoder's states (R24), the character of a digit (R118), the
buffer index of a digit (R119), the unit and its suffix (R120, R121), the frame of a character (R140, R141). -/

namespace Sys2Proof.Machine

/-- CR (R8). -/
def charCR : Byte := 0x0D

/-- LF (R8). -/
def charLF : Byte := 0x0A

/-- NUL (R8). -/
def charNUL : Byte := 0x00

/-- `'.'` (R8). -/
def charDot : Byte := 0x2E

/-- The indicator of R115: `'>'` when the overflow line is asserted, else a blank. -/
def indicator (ovf : Bool) : Byte := if ovf then 0x3E else 0x20

/-- The 3-bit code of a decoder state: `DigitN` is N (R24). -/
def DState.code : DState → BitVec 3
  | .overflowUnit => 0
  | .digit1 => 1
  | .digit2 => 2
  | .digit3 => 3
  | .digit4 => 4
  | .digit5 => 5
  | .digit6 => 6
  | .init => 7

/-- The decoder state with a given code (R24). -/
def DState.ofCode (c : BitVec 3) : DState :=
  if c = 0 then .overflowUnit
  else if c = 1 then .digit1
  else if c = 2 then .digit2
  else if c = 3 then .digit3
  else if c = 4 then .digit4
  else if c = 5 then .digit5
  else if c = 6 then .digit6
  else .init

/-- The state after `DigitN` (R114): `Digit(N−1)` for N >= 2, else `OverflowUnit`. -/
def afterDigit (n : BitVec 3) : DState := if 2 ≤ n then .ofCode (n - 1) else .overflowUnit

/-- `digit_char(v)` (R118): 0x30 + v for 0..9, `P_NONBCD_CHAR(v)` for 10..15. -/
def digitChar (c : Config) (v : BitVec 4) : Byte :=
  if v ≤ 9 then 0x30 + v.setWidth 8
  else if v = 10 then c.nonBcd.c10
  else if v = 11 then c.nonBcd.c11
  else if v = 12 then c.nonBcd.c12
  else if v = 13 then c.nonBcd.c13
  else if v = 14 then c.nonBcd.c14
  else c.nonBcd.c15

/-- `idx(N, d)` (R119): the buffer index of digit position N when the recorded decimal-point index is d. -/
def digitIdx (n d : BitVec 3) : BufIdx :=
  if d ≠ 0 ∧ n ≤ d then ⟨8 - n.toNat, by omega⟩ else ⟨7 - n.toNat, by omega⟩

/-- The index of the `'.'` of a decimal point recorded at N (R113, R119). -/
def dotIdx (n : BitVec 3) : BufIdx := ⟨7 - n.toNat, by omega⟩

/-- `dp'` of R113: a decimal-point strobe on this sample replaces the record, its absence keeps it (R126). -/
def recordedDp (n : BitVec 3) (dec : Bool) (dp : BitVec 3) : BitVec 3 := if dec then n else dp

/-- The measurement unit (R11, R120). -/
inductive MeasUnit where
  | microseconds
  | milliseconds
  | kilohertz
  | megahertz
  | none
  deriving DecidableEq, Repr

/-- `unit_of(a, b, has_dp)` (R120). -/
def unitOf (a b hasDp : Bool) : MeasUnit :=
  match hasDp, a, b with
  | false, _, _ => .none
  | true, true, false => .microseconds
  | true, false, false => .milliseconds
  | true, true, true => .kilohertz
  | true, false, true => .megahertz

/-- `suffix(unit)` in ASCII (R121). -/
def unitSuffix : MeasUnit → List Byte
  | .microseconds => [0x75, 0x73]
  | .milliseconds => [0x6D, 0x73]
  | .kilohertz => [0x6B, 0x48, 0x7A]
  | .megahertz => [0x4D, 0x48, 0x7A]
  | .none => []

/-- `t` of R115: the suffix, then CR LF NUL. -/
def readingTail (u : MeasUnit) : List Byte := unitSuffix u ++ [charCR, charLF, charNUL]

/-- The buffer indices k0, k0 + 1, … of R115's tail: k0 is 8 with a decimal point and 7 without. A tail has at most six bytes, so no
byte of it is left without an index. -/
def tailIdxs (hasDp : Bool) : List BufIdx :=
  if hasDp then [8, 9, 10, 11, 12, 13] else [7, 8, 9, 10, 11, 12]

/-- The nine bits of a frame, first emitted lowest (R140, R141): start bit 0 at bit 0, c[6:0] at [7:1], stop bit 1 at bit 8. Bit 7 of
the character has no effect (R78). -/
def frameWord (c : Byte) : BitVec 9 := 1#1 ++ c.extractLsb' 0 7 ++ 0#1

/-- What `begin` loads into a register of `w` bits (R140): padding 1s above bit 8, then the frame. -/
def shiftLoad (w : Nat) (c : Byte) : BitVec w :=
  (BitVec.allOnes w &&& ~~~0x1FF#w) ||| (frameWord c).setWidth w

/-- `r` of R142 and R143: the pair (available, bit) as R82 encodes it. -/
def bitResult (avail bit : Bool) : BitVec 2 := BitVec.ofBool avail ++ BitVec.ofBool (avail && bit)

end Sys2Proof.Machine
end

