-- ==== Sys2Proof/Machine/Ops.lean ====
section
/-! DEFINITION. The named operations over the buffer and over the whole state that the meanings share: reading and writing a buffer
byte (R9, R50), the refusal of an event (R192), the system reset (R221), taking an offer and waiting (R206). The block raises no
exception and saves no state when an interrupt is taken (R190, R198, R199), so there is no exception entry and no return to share:
the one way an event is turned away is `refuseEvent`. -/

namespace Sys2Proof.Machine

/-- The byte at an index: the listed one, or what an unlisted index reads as. -/
def Memory.get (dflt : Byte) (a : Nat) : Memory → Byte
  | [] => dflt
  | c :: m => if c.1 = a then c.2 else Memory.get dflt a m

/-- The buffer with no cell at an index. -/
def Memory.erase (a : Nat) : Memory → Memory
  | [] => []
  | c :: m => if c.1 = a then Memory.erase a m else c :: Memory.erase a m

/-- The buffer with a cell put in at its place in the rising order. -/
def Memory.insert (a : Nat) (v : Byte) : Memory → Memory
  | [] => [(a, v)]
  | c :: m => if a < c.1 then (a, v) :: c :: m else c :: Memory.insert a v m

/-- `MemWrite(a, 1, v)` (R9), keeping the canonical form: storing what an unlisted index reads as leaves no cell there. -/
def Memory.set (dflt : Byte) (a : BufIdx) (v : Byte) (m : Memory) : Memory :=
  if v = dflt then Memory.erase a m else Memory.insert a v (Memory.erase a m)

/-- Store several bytes, first to last. -/
def Memory.setMany (dflt : Byte) : List (BufIdx × Byte) → Memory → Memory
  | [], m => m
  | (a, v) :: ws, m => Memory.setMany dflt ws (Memory.set dflt a v m)

/-- `MemRead(i, 1)` (R9): byte `i` of the buffer. A read has no side effect (R57). -/
def State.readBuf (s : State) (i : BufIdx) : Byte := Memory.get s.cfg.bufInit i s.buf

/-- The index of an access from outside the rules: none at 15 or above, where the access is refused (R50, R56). -/
def bufIdx? (a : Nat) : Option BufIdx := if h : a < 15 then some ⟨a, h⟩ else none

/-- All buffer indices in ascending order. -/
def bufIdxs : List BufIdx := [0, 1, 2, 3, 4, 5, 6, 7, 8, 9, 10, 11, 12, 13, 14]

/-- R192: the event has no step. The model keeps every field and sets the model-only bit `refused`, which nothing clears. -/
def refuseEvent (s : State) : State := { s with refused := true }

/-- R221: every field of R33 gets its value of R220, the buffer `P_BUF_INIT` whatever `P_RESET_CLEARS_BUFFER` says. `refused` is
kept (R33), and so are the model's own fields (log 18). -/
def systemReset (s : State) : State :=
  { s with
    dstate := .init, dp := 0, done := false, buf := [],
    txShift := 0, txCount := 0,
    phase := .idle, busIrqEn := true, timerRun := false, ci := 0, txLen := 0, txd := true }

/-- Take the next offer out of the environment's store; the event it becomes has returned no value yet (R82; logs 1, 7). -/
def takeOffer (rest : List Offer) (s : State) : State := { s with events := rest, result := none }

/-- R206: with nothing offered the block waits in low power and every field survives (log 19). -/
def lowPowerWait (s : State) : State := s

/-- An event that is admitted does `f`; one that is not is refused (R192, R193). -/
def ifAdmitted (i : Instr) (f : State → Host.Outcome State Fault Refusal) (s : State) : Host.Outcome State Fault Refusal :=
  if admitted s i then f s else .next (refuseEvent s)

end Sys2Proof.Machine
end

