-- ==== Sys2Proof/Machine/Decoder.lean ====
section
/-! DEFINITION. The bus decoder: STEP and DRST, and the operations the scheduler performs with them (R110 to R128). -/

namespace Sys2Proof.Machine

/-- R111: start a pass. -/
def startPass (s : State) : State := { s with dstate := .digit6, dp := 0 }

/-- R113: record the digit of position `n`, and the decimal point. -/
def recordDigit (n : BitVec 3) (x : Snapshot) (s : State) : State :=
  let dp' := recordedDp n x.dec s.dp
  let digitWritten := Memory.set s.cfg.bufInit (digitIdx n dp') (digitChar s.cfg x.digit) s.buf
  { s with
    dp := dp',
    buf := if dp' = n then Memory.set s.cfg.bufInit (dotIdx n) charDot digitWritten else digitWritten }

/-- R114: advance from `DigitN`. -/
def advanceDigit (n : BitVec 3) (s : State) : State := { s with dstate := afterDigit n }

/-- R115: the bytes the finalisation stores, each with its index. -/
def finalWrites (x : Snapshot) (dp : BitVec 3) : List (BufIdx × Byte) :=
  let hasDp := dp != 0
  (0, indicator x.ovf) :: (tailIdxs hasDp).zip (readingTail (unitOf x.modeA x.modeB hasDp))

/-- R115: finalise the pass. -/
def finalisePass (x : Snapshot) (s : State) : State :=
  { s with
    buf := Memory.setMany s.cfg.bufInit (finalWrites x s.dp) s.buf,
    done := true,
    dstate := .init }

/-- R113, R114, R116: a snapshot in `DigitN`. -/
def digitStep (n : BitVec 3) (x : Snapshot) (s : State) : State :=
  if x.pos = n then recordDigit n x s
  else if x.pos = n - 1 then advanceDigit n s
  else s

/-- R110: the effect of one snapshot on the bus decoder. -/
def decoderStep (x : Snapshot) (s : State) : State :=
  match s.dstate with
  | .init => if x.pos = 6 then startPass s else s
  | .digit6 => digitStep 6 x s
  | .digit5 => digitStep 5 x s
  | .digit4 => digitStep 4 x s
  | .digit3 => digitStep 3 x s
  | .digit2 => digitStep 2 x s
  | .digit1 => digitStep 1 x s
  | .overflowUnit => finalisePass x s

/-- R117: the decoder reset. An empty list of cells is a buffer whose every byte is `P_BUF_INIT`. -/
def decoderReset (s : State) : State :=
  { s with
    dstate := .init, dp := 0, done := false,
    buf := if s.cfg.resetClearsBuffer then [] else s.buf }

/-- STEP (R110): accepted by the decoder unit (R81). -/
def execStep (x : Snapshot) (s : State) : Host.Outcome State Fault Refusal :=
  ifAdmitted (.step x) (fun s => .next (decoderStep x s)) s

/-- DRST (R117): accepted by the decoder unit (R81), legal in any state. -/
def execDrst (s : State) : Host.Outcome State Fault Refusal :=
  ifAdmitted .drst (fun s => .next (decoderReset s)) s

end Sys2Proof.Machine
end

