-- ==== Sys2Proof/Machine/Transmitter.lean ====
section
/-! DEFINITION. The serial transmitter: TXB and TXN, and the operations the scheduler performs with them (R140 to R147). -/

namespace Sys2Proof.Machine

/-- The shift register as the `P_TX_REG_WIDTH` bits it is (R28; log 6). -/
def State.txBits (s : State) : BitVec s.cfg.txRegWidth := BitVec.ofNat _ s.txShift

/-- R140: `begin(character)`. -/
def txBegin (c : Byte) (s : State) : State :=
  { s with txShift := (shiftLoad s.cfg.txRegWidth c).toNat, txCount := 9 }

/-- R142, R143: what `next_bit()` returns. -/
def txResult (s : State) : BitVec 2 := bitResult (s.txCount != 0) (s.txBits.getLsbD 0)

/-- R142, R143: what `next_bit()` leaves: a logical shift right and one bit fewer, or nothing changed when no bit is left. -/
def txAdvance (s : State) : State :=
  if s.txCount = 0 then s
  else { s with txShift := (s.txBits >>> 1).toNat, txCount := s.txCount - 1 }

/-- TXB (R140): accepted by the transmitter unit (R81). -/
def execTxb (c : Byte) (s : State) : Host.Outcome State Fault Refusal :=
  ifAdmitted (.txb c) (fun s => .next (txBegin c s)) s

/-- TXN (R142, R143): accepted by the transmitter unit (R81); the one event that returns a value (R82). -/
def execTxn (s : State) : Host.Outcome State Fault Refusal :=
  ifAdmitted .txn (fun s => .next { txAdvance s with result := some (txResult s) }) s

end Sys2Proof.Machine
end

