-- ==== Sys2Proof/Machine/Scheduler.lean ====
section
/-! DEFINITION. The mode scheduler: WAKE and TICK (R160 to R176). -/

namespace Sys2Proof.Machine

/-- `k` of R164: the least index whose byte is NUL, or 15 when there is none. -/
def firstNul (s : State) : Nat := bufIdxs.findIdx (fun i => s.readBuf i == charNUL)

/-- R164: `tx_length()`. -/
def txLength (s : State) : Nat :=
  let k := firstNul s
  if s.cfg.stalePolicy = .transmitNothing ∧ s.done = false then 0
  else if s.cfg.txSendNul ∧ k < 15 then k + 1
  else k

/-- R165: `finish()`. -/
def finishTransmit (s : State) : State :=
  { decoderReset s with timerRun := false, busIrqEn := true, phase := .idle, ci := 0, txLen := 0 }

/-- R166: `start_tx(L)`. -/
def startTransmit (len : Nat) (s : State) : State :=
  { txBegin (s.readBuf 0) s with
    txLen := BitVec.ofNat 4 len, ci := 0, timerRun := true, phase := .transmitting }

/-- R163: the falling edge of MUP. -/
def fallingEdge (s : State) : State :=
  if txLength s = 0 then finishTransmit { s with busIrqEn := false }
  else startTransmit (txLength s) { s with busIrqEn := false }

/-- R161: capture one sample. -/
def captureSample (x : Snapshot) (s : State) : State := decoderStep x { s with phase := .capturing }

/-- R161, R162, R163: the effect of an admitted wake. In a state that admits a wake in the phase `Transmitting`, which no run reaches
(R34), the rules have no case for MUP low and the model stops (log 10). -/
def wakeEffect (mup : Bool) (x : Snapshot) (s : State) : Host.Outcome State Fault Refusal :=
  if mup then .next (captureSample x s)
  else match s.phase with
    | .idle => .next s
    | .capturing => .next (fallingEdge s)
    | .transmitting => .fault .wakeNoCase

/-- R168: emit one bit. -/
def emitBit (s : State) : State := { txAdvance s with txd := (txResult s).getLsbD 0 }

/-- R169: the idle period of a character, and the load of the next one, at index `next`. -/
def loadNext (next : BufIdx) (s : State) : State :=
  { txBegin (s.readBuf next) s with txd := true, ci := BitVec.ofNat 4 next }

/-- R170: the idle period of the last character, and the end of the transmit phase. -/
def lastIdle (s : State) : State := finishTransmit { s with txd := true }

/-- R167: the effect of an admitted tick. In a state with `tx_count` = 0 and `ci + 1 > tx_len`, which no run reaches (R34), the rule has
no case and the model stops (log 10). -/
def tickEffect (s : State) : Host.Outcome State Fault Refusal :=
  if s.txCount ≠ 0 then .next (emitBit s)
  else if h : s.ci.toNat + 1 < s.txLen.toNat then .next (loadNext ⟨s.ci.toNat + 1, by omega⟩ s)
  else if s.ci.toNat + 1 = s.txLen.toNat then .next (lastIdle s)
  else .fault .tickNoCase

/-- WAKE (R161, R162, R163): accepted by the whole block (R81), admitted when `bus_irq_en` = 1 (R193). -/
def execWake (mup : Bool) (x : Snapshot) (s : State) : Host.Outcome State Fault Refusal :=
  ifAdmitted (.wake mup x) (wakeEffect mup x) s

/-- TICK (R167): accepted by the whole block (R81), admitted when `timer_run` = 1 (R193). -/
def execTick (s : State) : Host.Outcome State Fault Refusal :=
  ifAdmitted .tick tickEffect s

end Sys2Proof.Machine
end

