-- ==== Sys2Proof/Machine/System.lean ====
section
/-! DEFINITION. The system reset SRST (R221) and the reserved words of kind 111 (R79). -/

namespace Sys2Proof.Machine

/-- SRST (R221): accepted in every phase and every model (R81, R193). -/
def execSrst (s : State) : Host.Outcome State Fault Refusal := ifAdmitted .srst (fun s => .next (systemReset s)) s

/-- A reserved word (R79): refused in every model (R192); its 13 low bits mean nothing. -/
def execReserved (_p : BitVec 13) (s : State) : Host.Outcome State Fault Refusal := .next (refuseEvent s)

end Sys2Proof.Machine
end

