-- ==== Sys2Proof/Machine/Dispatch.lean ====
section
/-! DEFINITION. One arm per event (R72, R84): each calls its meaning. -/

namespace Sys2Proof.Machine

def exec (i : Instr) (s : State) : Host.Outcome State Fault Refusal :=
  match i with
  -- decoder unit
  | .step x => Sys2Proof.Machine.execStep x s
  | .drst => Sys2Proof.Machine.execDrst s
  -- transmitter unit
  | .txb c => Sys2Proof.Machine.execTxb c s
  | .txn => Sys2Proof.Machine.execTxn s
  -- whole block
  | .wake mup x => Sys2Proof.Machine.execWake mup x s
  | .tick => Sys2Proof.Machine.execTick s
  -- every model
  | .srst => Sys2Proof.Machine.execSrst s
  -- no model
  | .reserved p => Sys2Proof.Machine.execReserved p s

end Sys2Proof.Machine
end

