-- ==== Sys2Proof/Machine/SignalDecoder.lean ====
section
/-! DEFINITION. The signal decoder (R100 to R106): a stateless map from the levels of two 8-bit ports to a snapshot. The wiring and the
active levels are arguments here; the machine passes the OPEN parameters of Config. -/

namespace Sys2Proof.Machine

/-- The level of one port bit. -/
def portLevel (first second : BitVec 8) (b : PortBit) : Bool :=
  match b.port with
  | .first => first.getLsbD b.bit
  | .second => second.getLsbD b.bit

/-- A line is active when its level is its active level (R101). -/
def lineActive (pins : Line → PortBit) (polarity : Line → Bool) (first second : BitVec 8) (l : Line) : Bool :=
  portLevel first second (pins l) == polarity l

/-- The digit-strobe lines S1..S6 by number less one (R31). -/
def strobeLine : Fin 6 → Line
  | 0 => .s1
  | 1 => .s2
  | 2 => .s3
  | 3 => .s4
  | 4 => .s5
  | 5 => .s6

/-- R101: the lowest-numbered active strobe, or 0 when none is active. -/
def strobePos (act : Line → Bool) : BitVec 3 :=
  if act .s1 then 1 else if act .s2 then 2 else if act .s3 then 3
  else if act .s4 then 4 else if act .s5 then 5 else if act .s6 then 6 else 0

/-- R102: the BCD lines with weights 8, 4, 2, 1. -/
def bcdDigit (act : Line → Bool) : BitVec 4 :=
  BitVec.ofBool (act .b3) ++ BitVec.ofBool (act .b2) ++ BitVec.ofBool (act .b1) ++ BitVec.ofBool (act .b0)

/-- R100 to R104: the snapshot of one instant, from which lines are active. -/
def signalDecode (act : Line → Bool) : Snapshot where
  pos := strobePos act
  digit := bcdDigit act
  dec := act .dec
  ovf := act .ovf
  modeA := act .modeA
  modeB := act .modeB

/-- R105: the wake of one instant, with MUP and every other line latched together. -/
def wakeOfLines (act : Line → Bool) : Instr := .wake (act .mup) (signalDecode act)

/-- The wake two port levels stand for under the OPEN wiring and active levels (R31, R105; log 8). -/
def wakeOfPorts (first second : BitVec 8) : Instr :=
  wakeOfLines (lineActive Config.pinMap Config.linePolarity first second)

/-- The event an offer stands for: the one its word decodes to, if it decodes (R84), or the wake of its port levels (R105). -/
def offeredEvent : Offer → Option Instr
  | .word w => (decode w).toOption
  | .sample first second => some (wakeOfPorts first second)

end Sys2Proof.Machine
end

