-- ==== Sys2Proof/Machine/Step.lean ====
section
/-! DEFINITION. One step: process the environment's next offer as one atomic event, or wait when nothing is offered (R5, R60, R206). -/

namespace Sys2Proof.Machine

/-- One step. An offer that stands for no event is refused (R79, R192); a refused offer is consumed like any other (log 2). -/
def step (s : State) : Host.Outcome State Fault Refusal :=
  match s.events with
  | [] => .next (lowPowerWait s)
  | o :: rest =>
    match offeredEvent o with
    | some i => exec i (takeOffer rest s)
    | none => .next (refuseEvent (takeOffer rest s))

/-- `s` with the word of `nbits` bits `w` as the environment's next offer, in a model that accepts its kind: `s.model` if it does
(logs 4, 5). Nothing else changes. -/
def State.withFetchWord (s : State) (nbits w : Nat) : State :=
  { s with
    model := match decodeTableWord nbits w with
      | some i => modelFor s.model i
      | none => s.model,
    events := .word (BitVec.ofNat 16 (w % 2 ^ nbits)) :: s.events }

end Sys2Proof.Machine
end

