-- ==== Sys2Proof/Machine/Assembler.lean ====
section
/-! DEFINITION. The textual syntax of R83: one event per line, and the pseudo-events PASS, WPASS, FALL and TICKS with the events each
expands to. It is the spec's own notation for offers (D26) and has no effect on any state. -/

namespace Sys2Proof.Machine

/-- The operands of PASS and WPASS (R83): the digits of positions 6 to 1, the position of the decimal point (0 when none is given), and
the flags of the last snapshot. -/
structure PassArgs where
  d6 : BitVec 4
  d5 : BitVec 4
  d4 : BitVec 4
  d3 : BitVec 4
  d2 : BitVec 4
  d1 : BitVec 4
  dp : BitVec 3
  ovf : Bool
  modeA : Bool
  modeB : Bool
  deriving DecidableEq, Repr

/-- The two snapshots of one position (R83): the decimal point is on the second. -/
def positionPair (n : BitVec 3) (d : BitVec 4) (dp : BitVec 3) : List Snapshot :=
  [{ pos := n, digit := d, dec := false, ovf := false, modeA := false, modeB := false },
   { pos := n, digit := d, dec := dp == n, ovf := false, modeA := false, modeB := false }]

/-- The 14 snapshots of a pass (R83). -/
def passSnapshots (p : PassArgs) : List Snapshot :=
  positionPair 6 p.d6 p.dp ++ positionPair 5 p.d5 p.dp ++ positionPair 4 p.d4 p.dp ++
  positionPair 3 p.d3 p.dp ++ positionPair 2 p.d2 p.dp ++ positionPair 1 p.d1 p.dp ++
  [{ pos := 0, digit := 0, dec := false, ovf := false, modeA := false, modeB := false },
   { pos := 0, digit := 0, dec := false, ovf := p.ovf, modeA := p.modeA, modeB := p.modeB }]

/-- A line of the textual syntax (R83). -/
inductive SourceLine where
  | event (i : Instr)
  | pass (p : PassArgs)
  | wpass (p : PassArgs)
  | fall
  | ticks (n : Nat)
  deriving DecidableEq, Repr

/-- The events a line expands to (R83). -/
def SourceLine.expand : SourceLine → List Instr
  | .event i => [i]
  | .pass p => (passSnapshots p).map .step
  | .wpass p => (passSnapshots p).map (.wake true)
  | .fall => [.wake false { pos := 0, digit := 0, dec := false, ovf := false, modeA := false, modeB := false }]
  | .ticks n => List.replicate n .tick

/-- A flag's word when it is 1 (R83). -/
def flagText (name : String) (b : Bool) : String := if b then " " ++ name else ""

/-- The operands of STEP and WAKE (R83). -/
def snapshotText (x : Snapshot) : String :=
  "pos=" ++ toString x.pos.toNat ++ " dig=" ++ toString x.digit.toNat ++
    flagText "dec" x.dec ++ flagText "ovf" x.ovf ++ flagText "a" x.modeA ++ flagText "b" x.modeB

/-- One hexadecimal digit. -/
def hexDigit (n : Nat) : Char := Nat.digitChar n

/-- The line of an event (R83); a reserved word has none. -/
def eventText : Instr → Option String
  | .step x => some ("STEP " ++ snapshotText x)
  | .drst => some "DRST"
  | .txb c => some ("TXB 0x" ++ String.ofList [hexDigit (c.toNat / 16), hexDigit (c.toNat % 16)])
  | .txn => some "TXN"
  | .wake mup x => some ("WAKE mup=" ++ toString mup.toNat ++ " " ++ snapshotText x)
  | .tick => some "TICK"
  | .srst => some "SRST"
  | .reserved _ => none

/-- The words of a line, separated by blanks; `cur` is the word being read, reversed. -/
def wordsOf (cur : List Char) : List Char → List (List Char)
  | [] => if cur.isEmpty then [] else [cur.reverse]
  | c :: cs =>
    if c = ' ' then (if cur.isEmpty then wordsOf [] cs else cur.reverse :: wordsOf [] cs)
    else wordsOf (c :: cur) cs

/-- The value of a digit in a base up to 16. -/
def digitValue (base : Nat) (c : Char) : Option Nat :=
  let n := c.toNat
  let v := if 48 ≤ n ∧ n ≤ 57 then n - 48 else if 97 ≤ n ∧ n ≤ 102 then n - 87 else if 65 ≤ n ∧ n ≤ 70 then n - 55 else 16
  if v < base then some v else none

/-- The value of a run of digits. -/
def digitsValue (base acc : Nat) : List Char → Option Nat
  | [] => some acc
  | c :: cs =>
    match digitValue base c with
    | some v => digitsValue base (base * acc + v) cs
    | none => none

/-- A number: decimal unless prefixed 0x (R83). -/
def numberOf : List Char → Option Nat
  | '0' :: 'x' :: c :: cs => digitsValue 16 0 (c :: cs)
  | c :: cs => digitsValue 10 0 (c :: cs)
  | [] => none

/-- A number below a bound. -/
def numberBelow (bound : Nat) (w : List Char) : Option Nat :=
  match numberOf w with
  | some n => if n < bound then some n else none
  | none => none

/-- What follows a key at the start of a word. -/
def afterKey : List Char → List Char → Option (List Char)
  | [], w => some w
  | _ :: _, [] => none
  | k :: ks, c :: cs => if k = c then afterKey ks cs else none

/-- The number a word gives a key (as `pos=3`), below a bound. -/
def keyed (key : String) (bound : Nat) (w : List Char) : Option Nat :=
  match afterKey key.toList w with
  | some v => numberBelow bound v
  | none => none

/-- The flags given, from the words left on a line: a flag that is present is 1 and an absent one is 0 (R83). -/
def withFlags (x : Snapshot) : List (List Char) → Option Snapshot
  | [] => some x
  | w :: ws =>
    if w = "dec".toList then withFlags { x with dec := true } ws
    else if w = "ovf".toList then withFlags { x with ovf := true } ws
    else if w = "a".toList then withFlags { x with modeA := true } ws
    else if w = "b".toList then withFlags { x with modeB := true } ws
    else none

/-- The snapshot the words of a STEP or WAKE give. -/
def snapshotOf : List (List Char) → Option Snapshot
  | p :: d :: flags =>
    match keyed "pos=" 8 p, keyed "dig=" 16 d with
    | some pos, some digit =>
      withFlags
        { pos := BitVec.ofNat 3 pos, digit := BitVec.ofNat 4 digit, dec := false, ovf := false, modeA := false, modeB := false } flags
    | _, _ => none
  | _ => none

/-- The flags of a pass: those of a snapshot but for `dec`. -/
def passFlags (p : PassArgs) (ws : List (List Char)) : Option PassArgs :=
  match withFlags { pos := 0, digit := 0, dec := false, ovf := false, modeA := false, modeB := false } ws with
  | some x => if x.dec then none else some { p with ovf := x.ovf, modeA := x.modeA, modeB := x.modeB }
  | none => none

/-- The operands the words of a PASS or WPASS give; `dp=N` is a digit position, 1 to 6. -/
def passOf : List (List Char) → Option PassArgs
  | w6 :: w5 :: w4 :: w3 :: w2 :: w1 :: ws =>
    match numberBelow 16 w6, numberBelow 16 w5, numberBelow 16 w4, numberBelow 16 w3, numberBelow 16 w2, numberBelow 16 w1 with
    | some d6, some d5, some d4, some d3, some d2, some d1 =>
      let p : PassArgs :=
        { d6 := BitVec.ofNat 4 d6, d5 := BitVec.ofNat 4 d5, d4 := BitVec.ofNat 4 d4, d3 := BitVec.ofNat 4 d3,
          d2 := BitVec.ofNat 4 d2, d1 := BitVec.ofNat 4 d1, dp := 0, ovf := false, modeA := false, modeB := false }
      match ws with
      | [] => some p
      | w :: rest =>
        match keyed "dp=" 7 w with
        | some n => if n = 0 then none else passFlags { p with dp := BitVec.ofNat 3 n } rest
        | none => passFlags p ws
    | _, _, _, _, _, _ => none
  | _ => none

/-- Reading a line given as its words (R83). -/
def lineOfWords : List (List Char) → Option SourceLine
  | [] => none
  | k :: ws =>
    if k = "STEP".toList then (snapshotOf ws).map fun x => .event (.step x)
    else if k = "WAKE".toList then
      match ws with
      | m :: rest =>
        match keyed "mup=" 2 m, snapshotOf rest with
        | some v, some x => some (.event (.wake (v == 1) x))
        | _, _ => none
      | [] => none
    else if k = "TXB".toList then
      match ws with
      | [c] => (numberBelow 256 c).map fun v => .event (.txb (BitVec.ofNat 8 v))
      | _ => none
    else if k = "PASS".toList then (passOf ws).map .pass
    else if k = "WPASS".toList then (passOf ws).map .wpass
    else if k = "TICKS".toList then
      match ws with
      | [n] => (numberOf n).map .ticks
      | _ => none
    else if ws ≠ [] then none
    else if k = "TXN".toList then some (.event .txn)
    else if k = "TICK".toList then some (.event .tick)
    else if k = "DRST".toList then some (.event .drst)
    else if k = "SRST".toList then some (.event .srst)
    else if k = "FALL".toList then some .fall
    else none

/-- Reading one line of the textual syntax (R83; log 20). -/
def parseLine (line : String) : Option SourceLine := lineOfWords (wordsOf [] line.toList)

/-- The offers a list of events makes: each event's word, in order (R235, R236). -/
def offersOf (is : List Instr) : List Offer := is.map fun i => .word (encode i)

end Sys2Proof.Machine
end

