-- ==== Sys2Proof/Safety.lean ====
section
/-! DEFINITION. What claims about runs speak of: the invariants of R34 and what goes with them, the launch premise (R235), the end of a
run (R236), the ticks a transmission owes (R176, R236), and runs of several events. -/

namespace Sys2Proof.Machine

/-- The invariants of R34, and those of R28, R29, R164, R166 and R171 that make them inductive. -/
structure BlockInv (s : State) : Prop where
  /-- R34 (a): the bus-change interrupt is enabled exactly outside the transmit phase. -/
  busIrq : s.busIrqEn = true ↔ s.phase ≠ .transmitting
  /-- R34 (a): the timer runs exactly in the transmit phase. -/
  timer : s.timerRun = true ↔ s.phase = .transmitting
  /-- R34 (b). -/
  dpRange : s.dp.toNat ≤ 6
  /-- R34 (c). -/
  sending : s.phase = .transmitting → s.ci.toNat < s.txLen.toNat
  /-- R34 (d). -/
  countRange : s.txCount.toNat ≤ 9
  /-- R28: the shift register holds `P_TX_REG_WIDTH` bits. -/
  shiftRange : s.txShift < 2 ^ s.cfg.txRegWidth
  /-- The buffer keeps its canonical form. -/
  bufWf : Memory.wf s.cfg.bufInit s.buf
  /-- Only the whole block leaves `Idle` (R81, R161). -/
  unitIdle : s.model ≠ .wholeBlock → s.phase = .idle
  /-- R29, R171: outside the transmit phase the line is idle and nothing is being sent. -/
  resting : s.phase ≠ .transmitting → s.ci = 0 ∧ s.txLen = 0 ∧ s.txd = true
  /-- R170: in the whole block no bit is left outside the transmit phase. -/
  drained : s.model = .wholeBlock → s.phase ≠ .transmitting → s.txCount = 0
  /-- R229: the length taken at the start is the one found by scanning during the phase. -/
  length : s.phase = .transmitting → s.txLen.toNat = txLength s
  /-- R141, R166, R169: what is left in the register is what is left of the frame of the character being sent. -/
  frameLeft : s.phase = .transmitting →
    s.txShift % 2 ^ s.txCount.toNat = (frameWord (Memory.get s.cfg.bufInit s.ci.toNat s.buf)).toNat >>> (9 - s.txCount.toNat)
  /-- R169, R171: while a whole frame or none of it is left, the line is at the idle level. -/
  lineIdle : s.phase = .transmitting → s.txCount = 0 ∨ s.txCount = 9 → s.txd = true
  /-- R51, R164: after a finalised pass a NUL stands at an index from 9 to 13. -/
  terminated : s.done = true → ∃ k : BufIdx, 9 ≤ k.val ∧ k.val ≤ 13 ∧ s.readBuf k = charNUL

/-- The bus decoder's fields hold their values of R220 (R23); an empty list of cells is a buffer whose every byte is `P_BUF_INIT`. -/
def decoderAtReset (s : State) : Prop := s.dstate = .init ∧ s.dp = 0 ∧ s.done = false ∧ s.buf = []

/-- The transmitter's fields hold their values of R220 (R28). -/
def transmitterAtReset (s : State) : Prop := s.txShift = 0 ∧ s.txCount = 0

/-- The scheduler's fields hold their values of R220 (R29). -/
def schedulerAtReset (s : State) : Prop :=
  s.phase = .idle ∧ s.busIrqEn = true ∧ s.timerRun = false ∧ s.ci = 0 ∧ s.txLen = 0 ∧ s.txd = true

/-- R235: the launch premise, restricted in the two units to their own fields. No event has been processed, so none has returned a value
(log 7). Bring-up is complete in every state of the model (log 15), and the offers of the run are in `events` (log 1). -/
def cleanLaunch (s : State) : Prop :=
  s.refused = false ∧ s.result = none ∧
  match s.model with
  | .decoderUnit => decoderAtReset s
  | .transmitterUnit => transmitterAtReset s
  | .wholeBlock => decoderAtReset s ∧ transmitterAtReset s ∧ schedulerAtReset s

/-- R236: what holds at the end of a complete run. -/
def complete (s : State) : Prop :=
  s.refused = false ∧ s.phase ≠ .transmitting ∧ s.timerRun = false ∧ s.txd = true

/-- R176, R236: the ticks a transmission still owes: the bits left of this character and its idle period, then ten for each later
character. -/
def ticksOwed (s : State) : Nat :=
  if s.phase = .transmitting then s.txCount.toNat + 1 + ticksPerChar * (s.txLen.toNat - (s.ci.toNat + 1)) else 0

/-- Process the events of a list one after another (R60, R236), stopping at a fault or a refusal. -/
def runEvents : List Instr → State → Host.Outcome State Fault Refusal
  | [], s => .next s
  | i :: is, s =>
    match exec i s with
    | .next t => runEvents is t
    | .fault f => .fault f
    | .refused r => .refused r

/-- The values that `n` successive TXN return (R82, R141, R147). -/
def drain : Nat → State → List (Option (BitVec 2))
  | 0, _ => []
  | n + 1, s =>
    match exec .txn s with
    | .next t => t.result :: drain n t
    | .fault _ => []
    | .refused _ => []

/-- `n` bytes of the buffer from index `k` on. -/
def bytesFrom (s : State) (k n : Nat) : List Byte := ((bufIdxs.drop k).take n).map s.readBuf

/-- The fields of the bus decoder are alike, every byte of the buffer among them (R23). -/
def sameDecoder (s t : State) : Prop :=
  t.dstate = s.dstate ∧ t.dp = s.dp ∧ t.done = s.done ∧ ∀ i, t.readBuf i = s.readBuf i

/-- The fields of the transmitter are alike (R28). -/
def sameTransmitter (s t : State) : Prop := t.txShift = s.txShift ∧ t.txCount = s.txCount

/-- The fields of the scheduler are alike (R29). -/
def sameScheduler (s t : State) : Prop :=
  t.phase = s.phase ∧ t.busIrqEn = s.busIrqEn ∧ t.timerRun = s.timerRun ∧ t.ci = s.ci ∧ t.txLen = s.txLen ∧ t.txd = s.txd

/-- The characters of a clean pass up to and with its NUL (R51, R173): the indicator, the six digits with a `'.'` before the one at
position `dp`, the suffix, CR, LF, NUL. -/
def passText (c : Config) (p : PassArgs) : List Byte :=
  let digits := [p.d6, p.d5, p.d4, p.d3, p.d2, p.d1].map (digitChar c)
  let point := 6 - p.dp.toNat
  let body := if p.dp = 0 then digits else digits.take point ++ [charDot] ++ digits.drop point
  indicator p.ovf :: body ++ readingTail (unitOf p.modeA p.modeB (p.dp != 0))

end Sys2Proof.Machine
end

