-- ==== Sys2Proof/Certificates/Slice0/Obligations.lean ====
section
/-! DEFINITION. The statements for the provers. Each docstring names the rule it formalises, or the rules it rests on; where a clause
rests on a choice of the spec's own (a decision D<n>) or of the model's (log <n>) it says so. An equation with a record update states
the frame too: every field it does not name is unchanged. The premise on `model` says which of the three models of R81 runs; the field
that says so is the model's own (log 4). -/

open Sys2Proof Sys2Proof.Machine

/-! ## Reset and encoding -/

/-- The machine after reset meets every invariant (R34 holds at the values of R220). -/
def Obligations.ResetMeetsTheInvariants : Prop := BlockInv State.reset

/-- After reset every field of R33 has its value of R220, which rests on D8, D15 and D18; every byte reads as `P_BUF_INIT`, whose
default is 0x00, and `refused` is 0 (R235). The other fields are the model's own (logs 1, 3, 4, 7). -/
def Obligations.ResetFieldValues : Prop :=
  let s := State.reset
  s.dstate = .init ∧ s.dp = 0 ∧ s.done = false ∧ (∀ i, s.readBuf i = 0x00) ∧ s.txShift = 0 ∧ s.txCount = 0 ∧
  s.phase = .idle ∧ s.busIrqEn = true ∧ s.timerRun = false ∧ s.ci = 0 ∧ s.txLen = 0 ∧ s.txd = true ∧ s.refused = false

/-- Words written out from R72 to R77, one of each kind, and one with a reserved bit set (the spec's own encoding: D2, D3, D35). That the
word of kind 111 decodes to an event, `reserved`, is the model's choice (log 17): R84 (2) has it refused, and so it is when the event is
processed. -/
def Obligations.ExampleWordsDecode : Prop :=
  decode 0b0000000010100011 = .ok (.step { pos := 3, digit := 4, dec := true, ovf := false, modeA := false, modeB := false }) ∧
  decode 0b0010000000000000 = .ok .drst ∧
  decode 0b0100000000110001 = .ok (.txb 0x31) ∧
  decode 0b0110000000000000 = .ok .txn ∧
  decode 0b1000111100001000 = .ok (.wake true { pos := 0, digit := 1, dec := false, ovf := true, modeA := true, modeB := true }) ∧
  decode 0b1010000000000000 = .ok .tick ∧
  decode 0b1100000000000000 = .ok .srst ∧
  decode 0b1110000000000001 = .ok (.reserved 1) ∧
  decode 0b0000100000000000 = .error (.reservedBits "STEP")

/-- Decoding the word of any event gives the event back, with every operand at every value (R73 to R78; the spec's own
encoding: D2, D3; that kind 111 has an event is the model's, log 17). -/
def Obligations.DecodeOfEncode : Prop := ∀ i : Instr, decode (encode i) = .ok i

/-- A word that decodes is the word of the event it decodes to, so no two words stand for one event (R71, R84; D2). -/
def Obligations.EncodeOfDecode : Prop := ∀ (w : EventWord) (i : Instr), decode w = .ok i → encode i = w

/-! ## One step -/

/-- A step with a word offered processes the event the word decodes to, once the offer is taken and the result port cleared
(R5, R84; D1, D2; the offers and the result port are the model's own, logs 1 and 7). -/
def Obligations.StepRunsTheOfferedWord : Prop :=
  ∀ (s : State) (w : EventWord) (rest : List Offer) (i : Instr), s.events = .word w :: rest → decode w = .ok i →
    step s = exec i { s with events := rest, result := none }

/-- A step with port levels offered processes the wake of the lines, all sampled at one instant (R105; D19; log 9), for whatever wiring
and active levels the machine has, once the offer is taken and the result port cleared (the model's own: logs 1, 7). -/
def Obligations.StepRunsTheSampledWake : Prop :=
  ∀ (s : State) (a b : BitVec 8) (rest : List Offer), s.events = .sample a b :: rest →
    let act := lineActive Config.pinMap Config.linePolarity a b
    step s = exec (.wake (act .mup) (signalDecode act)) { s with events := rest, result := none }

/-- With nothing offered a step is a wait, and every field survives it (R206, D36; log 19). -/
def Obligations.StepWaitsWhenNothingIsOffered : Prop := ∀ s : State, s.events = [] → step s = .next s

/-- A word whose kind is 111, or with any reserved bit of its format set, has no step: `refused` is set and no field of R33
changes (R79, R192, D35). That the offer is consumed is the model's reading (log 2), and the offers and the result port, which is
cleared, are the model's own (logs 1, 7). -/
def Obligations.WordWithAReservedBitIsRefused : Prop :=
  ∀ (s : State) (w : EventWord) (rest : List Offer), s.events = .word w :: rest →
    (w.extractLsb' 13 3 = 0 ∧ w.extractLsb' 11 2 ≠ 0 ∨ w.extractLsb' 13 3 = 1 ∧ w.extractLsb' 0 13 ≠ 0 ∨
     w.extractLsb' 13 3 = 2 ∧ w.extractLsb' 8 5 ≠ 0 ∨ w.extractLsb' 13 3 = 3 ∧ w.extractLsb' 0 13 ≠ 0 ∨
     w.extractLsb' 13 3 = 4 ∧ w.getLsbD 12 = true ∨ w.extractLsb' 13 3 = 5 ∧ w.extractLsb' 0 13 ≠ 0 ∨
     w.extractLsb' 13 3 = 6 ∧ w.extractLsb' 0 13 ≠ 0 ∨ w.extractLsb' 13 3 = 7) →
    step s = .next { s with events := rest, result := none, refused := true }

/-! ## Signal decoder -/

/-- R101: the position is N exactly when strobe N is active and no lower one is, and 0 exactly when none is; so it lies in 0..6. -/
def Obligations.LowestActiveStrobeWins : Prop :=
  ∀ act : Line → Bool,
    (signalDecode act).pos.toNat ≤ 6 ∧
    ((signalDecode act).pos = 0 ↔ ∀ k : Fin 6, act (strobeLine k) = false) ∧
    ∀ k : Fin 6, (signalDecode act).pos.toNat = k.val + 1 ↔
      act (strobeLine k) = true ∧ ∀ j : Fin 6, j < k → act (strobeLine j) = false

/-- R102 and R103: the digit is 8·b3 + 4·b2 + 2·b1 + b0 (weights: D31), and the flags are passed through. -/
def Obligations.SnapshotCarriesDigitAndFlags : Prop :=
  ∀ act : Line → Bool,
    (signalDecode act).digit.toNat =
      8 * (act .b3).toNat + 4 * (act .b2).toNat + 2 * (act .b1).toNat + (act .b0).toNat ∧
    (signalDecode act).dec = act .dec ∧ (signalDecode act).ovf = act .ovf ∧
    (signalDecode act).modeA = act .modeA ∧ (signalDecode act).modeB = act .modeB

/-! ## Bus decoder -/

/-- R111: in `Init`, position 6 starts a pass; nothing but `dstate` and `dp` changes. -/
def Obligations.StepStartsAPass : Prop :=
  ∀ (s : State) (x : Snapshot), s.model = .decoderUnit → s.dstate = .init → x.pos = 6 →
    exec (.step x) s = .next { s with dstate := .digit6, dp := 0 }

/-- R112: in `Init`, any other position changes no field. -/
def Obligations.StepIgnoresOtherPositionsInInit : Prop :=
  ∀ (s : State) (x : Snapshot), s.model = .decoderUnit → s.dstate = .init → x.pos ≠ 6 → exec (.step x) s = .next s

/-- R113, R118, R119, R126 (indices and the moment of the `'.'`: D7; characters: D6): in `DigitN`, position N records the decimal-point
index if `dec` is set, stores the digit's character at its index and, when the recorded index is N, a `'.'` before it; every other
byte and every other field is unchanged. -/
def Obligations.StepRecordsADigit : Prop :=
  ∀ (s : State) (x : Snapshot) (n : BitVec 3), s.model = .decoderUnit → s.dstate.code = n → 1 ≤ n → n ≤ 6 → x.pos = n →
    ∃ t, exec (.step x) s = .next t ∧
      t.dp = (if x.dec then n else s.dp) ∧
      t.readBuf (digitIdx n t.dp) = digitChar s.cfg x.digit ∧
      (t.dp = n → t.readBuf (dotIdx n) = 0x2E) ∧
      (∀ i : BufIdx, i ≠ digitIdx n t.dp → (t.dp = n → i ≠ dotIdx n) → t.readBuf i = s.readBuf i) ∧
      t = { s with dp := t.dp, buf := t.buf }

/-- R118 and R119 as the spec writes them (D6, D7): the index of digit N under a recorded index d, the index of the `'.'`, and the
character of a digit value. -/
def Obligations.DigitIndexAndCharacter : Prop :=
  (∀ n d : BitVec 3, 1 ≤ n → n ≤ 6 →
    (digitIdx n d).val = (if d ≠ 0 ∧ n.toNat ≤ d.toNat then 8 - n.toNat else 7 - n.toNat) ∧ (dotIdx n).val = 7 - n.toNat) ∧
  ∀ (c : Config) (v : BitVec 4),
    (v.toNat ≤ 9 → (digitChar c v).toNat = 0x30 + v.toNat) ∧
    (v.toNat = 10 → digitChar c v = c.nonBcd.c10) ∧ (v.toNat = 11 → digitChar c v = c.nonBcd.c11) ∧
    (v.toNat = 12 → digitChar c v = c.nonBcd.c12) ∧ (v.toNat = 13 → digitChar c v = c.nonBcd.c13) ∧
    (v.toNat = 14 → digitChar c v = c.nonBcd.c14) ∧ (v.toNat = 15 → digitChar c v = c.nonBcd.c15)

/-- R114: in `DigitN`, position N − 1 advances to `Digit(N−1)`, or from `Digit1` to `OverflowUnit`, and writes nothing else. -/
def Obligations.StepAdvances : Prop :=
  ∀ (s : State) (x : Snapshot) (n : BitVec 3), s.model = .decoderUnit → s.dstate.code = n → 1 ≤ n → n ≤ 6 →
    x.pos.toNat + 1 = n.toNat →
    ∃ d : DState, d.code.toNat + 1 = n.toNat ∧ exec (.step x) s = .next { s with dstate := d }

/-- R115, R120, R121 (which snapshot finalises: D5): in `OverflowUnit` any snapshot stores the indicator, and from index 7 (no decimal
point) or 8 the unit's suffix, CR, LF and NUL; sets `done`; goes to `Init`; every other byte and every other field is unchanged. -/
def Obligations.StepFinalisesAPass : Prop :=
  ∀ (s : State) (x : Snapshot), s.model = .decoderUnit → s.dstate = .overflowUnit →
    let k0 := if s.dp = 0 then 7 else 8
    let suffix : List Byte :=
      if s.dp = 0 then []
      else if x.modeA = true ∧ x.modeB = false then [0x75, 0x73]
      else if x.modeA = false ∧ x.modeB = false then [0x6D, 0x73]
      else if x.modeA = true ∧ x.modeB = true then [0x6B, 0x48, 0x7A]
      else [0x4D, 0x48, 0x7A]
    let tail := suffix ++ [0x0D, 0x0A, 0x00]
    ∃ t, exec (.step x) s = .next t ∧
      t.readBuf 0 = (if x.ovf then 0x3E else 0x20) ∧
      bytesFrom t k0 tail.length = tail ∧
      (∀ i : BufIdx, i.val ≠ 0 → (i.val < k0 ∨ k0 + tail.length ≤ i.val) → t.readBuf i = s.readBuf i) ∧
      t = { s with buf := t.buf, done := true, dstate := .init }

/-- R116: in `DigitN`, a position that is neither N nor N − 1 changes no field. -/
def Obligations.StepRejectsGlitches : Prop :=
  ∀ (s : State) (x : Snapshot) (n : BitVec 3), s.model = .decoderUnit → s.dstate.code = n → 1 ≤ n → n ≤ 6 →
    x.pos.toNat ≠ n.toNat → x.pos.toNat + 1 ≠ n.toNat → exec (.step x) s = .next s

/-- R124 (the spec's own derivation from R113 and R119): in `DigitN` the same position-N snapshot twice leaves what it leaves once. The
premise on the buffer's form is an invariant of every step. -/
def Obligations.DebounceIsIdempotent : Prop :=
  ∀ (s : State) (x : Snapshot) (n : BitVec 3), s.model = .decoderUnit → s.dstate.code = n → 1 ≤ n → n ≤ 6 → x.pos = n →
    Memory.wf s.cfg.bufInit s.buf →
    ∃ t, exec (.step x) s = .next t ∧ exec (.step x) t = .next t

/-- R117 and R222 (that the buffer goes with the decoder is the parameter of D9): DRST in the decoder unit resets the decoder fields,
keeps or clears the buffer according to `P_RESET_CLEARS_BUFFER`, and leaves the rest. -/
def Obligations.DrstResetsTheDecoder : Prop :=
  ∀ s : State, s.model = .decoderUnit →
    ∃ t, exec .drst s = .next t ∧ t.dstate = .init ∧ t.dp = 0 ∧ t.done = false ∧
      (∀ i, t.readBuf i = if s.cfg.resetClearsBuffer then s.cfg.bufInit else s.readBuf i) ∧
      t = { s with dstate := .init, dp := 0, done := false, buf := t.buf }

/-- R51, R83, R173, T1 to T4 (D5, D6, D7): from `Init`, a clean pass of any digits, decimal point, overflow and mode lines leaves
exactly the reading's text from index 0 on and every byte after it as it was, with `done` set and the decimal point recorded. -/
def Obligations.CleanPassLaysOutTheReading : Prop :=
  ∀ (s : State) (p : PassArgs), s.model = .decoderUnit → s.dstate = .init → p.dp ≤ 6 →
    ∃ t, runEvents (SourceLine.pass p).expand s = .next t ∧
      bytesFrom t 0 (passText s.cfg p).length = passText s.cfg p ∧
      (∀ i : BufIdx, (passText s.cfg p).length ≤ i.val → t.readBuf i = s.readBuf i) ∧
      t = { s with buf := t.buf, dp := p.dp, done := true }

/-- R128 and R110 (the spec's own derivation): in any step the decoder keeps its state, goes to `Init`, leaves `Init` for `Digit6`, or
goes down by one position. -/
def Obligations.DecoderStatesDescendOneAtATime : Prop :=
  ∀ s t : State, step s = .next t →
    t.dstate = s.dstate ∨ t.dstate = .init ∨ (s.dstate = .init ∧ t.dstate = .digit6) ∨
    (s.dstate ≠ .init ∧ t.dstate.code.toNat + 1 = s.dstate.code.toNat)

/-- R26: only a finalisation sets `done`, and only a reset of the decoder, alone (R117) or in SRST (R221), clears it; what the reset leaves
in the buffer is the parameter of D9. -/
def Obligations.DoneFollowsFinalisationAndReset : Prop :=
  ∀ s t : State, step s = .next t →
    (s.done = false → t.done = true → s.dstate = .overflowUnit ∧ t.dstate = .init ∧ t.dp = s.dp) ∧
    (s.done = true → t.done = false → t.dstate = .init ∧ t.dp = 0 ∧
      ((∀ i, t.readBuf i = s.cfg.bufInit) ∨ (∀ i, t.readBuf i = s.readBuf i)))

/-- R52, R51, R56: a step that changes a byte of the buffer is a record in a `DigitN` (indices 1 to 7), a finalisation (index 0 or 7 to
13) or a reset, which stores `P_BUF_INIT`; so index 14 is written by the resets alone (the indices: D7; the initial byte: D8, D9). -/
def Obligations.OnlyRecordFinaliseAndResetWriteTheBuffer : Prop :=
  ∀ (s t : State) (i : BufIdx), step s = .next t → t.readBuf i ≠ s.readBuf i →
    (1 ≤ s.dstate.code ∧ s.dstate.code ≤ 6 ∧ t.dstate = s.dstate ∧ 1 ≤ i.val ∧ i.val ≤ 7) ∨
    (s.dstate = .overflowUnit ∧ t.done = true ∧ (i.val = 0 ∨ 7 ≤ i.val ∧ i.val ≤ 13)) ∨
    (t.dstate = .init ∧ t.dp = 0 ∧ t.done = false ∧ t.readBuf i = s.cfg.bufInit)

/-! ## Serial transmitter -/

/-- R140, R78 (register width and layout: D10; bit 7: D11): TXB loads the start bit at bit 0, c[6:0] at [7:1], 1s from bit 8 to the top
of the register, and the count 9, and writes nothing else. -/
def Obligations.TxbLoadsTheFrame : Prop :=
  ∀ (s : State) (c : Byte), s.model = .transmitterUnit →
    ∃ t, exec (.txb c) s = .next t ∧ t.txCount = 9 ∧ t.txShift < 2 ^ s.cfg.txRegWidth ∧
      (∀ k, k < s.cfg.txRegWidth →
        t.txShift.testBit k = if k = 0 then false else if k ≤ 7 then c.getLsbD (k - 1) else true) ∧
      t = { s with txShift := t.txShift, txCount := 9 }

/-- R142, R82 (the fill bit: D10; the result's code: D37; its port: log 7): with bits left, TXN returns {1, lowest bit}, shifts the
register right and takes one from the count. The premise on the register's range is an invariant of every step. -/
def Obligations.TxnYieldsTheLowestBit : Prop :=
  ∀ s : State, s.model = .transmitterUnit → s.txCount ≠ 0 → s.txShift < 2 ^ s.cfg.txRegWidth →
    exec .txn s = .next { s with
      txShift := s.txShift / 2, txCount := s.txCount - 1, result := some (if s.txShift % 2 = 1 then 0b11 else 0b10) }

/-- R143: with no bit left, TXN returns 0b00 and changes no field (the port the value comes out on is the model's own, log 7). -/
def Obligations.TxnReportsNoBit : Prop :=
  ∀ s : State, s.model = .transmitterUnit → s.txCount = 0 → exec .txn s = .next { s with result := some 0b00 }

/-- R141 and R147 (the spec's own derivations; the result's code: D37; the port it comes out on is the model's own, log 7): after TXB the
next nine TXN return the start bit, the seven data bits least significant first and the stop bit, a tenth returns 'no bit', and for a
7-bit character the data bits sum up to it. -/
def Obligations.DrainedFrameIsTheCharacter : Prop :=
  ∀ (s : State) (c : Byte), s.model = .transmitterUnit →
    let bits := [false, c.getLsbD 0, c.getLsbD 1, c.getLsbD 2, c.getLsbD 3, c.getLsbD 4, c.getLsbD 5, c.getLsbD 6, true]
    (∃ t, exec (.txb c) s = .next t ∧
      drain 10 t = bits.map (fun q => some (if q then 0b11#2 else 0b10#2)) ++ [some 0b00#2]) ∧
    (c.getLsbD 7 = false → ((List.range 7).map fun i => (c.getLsbD i).toNat * 2 ^ i).sum = c.toNat)

/-! ## Mode scheduler -/

/-- R161 (the phase: D15): an admitted WAKE with MUP high enters `Capturing` and does to the decoder exactly what STEP does with its
snapshot. -/
def Obligations.WakeHighFeedsTheDecoder : Prop :=
  ∀ (s : State) (x : Snapshot), s.model = .wholeBlock → s.busIrqEn = true →
    ∃ t u, exec (.wake true x) s = .next t ∧
      exec (.step x) { s with model := .decoderUnit, phase := .capturing } = .next u ∧
      t = { s with phase := .capturing, dstate := u.dstate, dp := u.dp, done := u.done, buf := u.buf }

/-- R162 (D15): an admitted WAKE with MUP low in `Idle` changes no field. -/
def Obligations.WakeLowInIdleDoesNothing : Prop :=
  ∀ (s : State) (x : Snapshot), s.model = .wholeBlock → s.busIrqEn = true → s.phase = .idle →
    exec (.wake false x) s = .next s

/-- R163 and R166 (D15, D16): on the falling edge with L >= 1 characters to send, bus wakes are disabled, the first character is loaded
as TXB loads it, the timer starts and the phase is `Transmitting`; the pin and the decoder are unchanged. -/
def Obligations.FallingEdgeStartsATransmission : Prop :=
  ∀ (s : State) (x : Snapshot), s.model = .wholeBlock → s.busIrqEn = true → s.phase = .capturing → txLength s ≠ 0 →
    ∃ t u, exec (.wake false x) s = .next t ∧
      exec (.txb (s.readBuf 0)) { s with model := .transmitterUnit } = .next u ∧
      t.txLen.toNat = txLength s ∧
      t = { s with
        busIrqEn := false, txLen := t.txLen, ci := 0, txShift := u.txShift, txCount := 9, timerRun := true,
        phase := .transmitting }

/-- R163 and R165 (D16): on the falling edge with nothing to send, `finish()` runs at once: the decoder is reset, the timer does not
start, and the phase is `Idle` with bus wakes enabled. -/
def Obligations.FallingEdgeWithNothingToSend : Prop :=
  ∀ (s : State) (x : Snapshot), s.model = .wholeBlock → s.busIrqEn = true → s.phase = .capturing → txLength s = 0 →
    ∃ t, exec (.wake false x) s = .next t ∧
      (∀ i, t.readBuf i = if s.cfg.resetClearsBuffer then s.cfg.bufInit else s.readBuf i) ∧
      t = { s with
        dstate := .init, dp := 0, done := false, buf := t.buf,
        timerRun := false, busIrqEn := true, phase := .idle, ci := 0, txLen := 0 }

/-- R164 (D13, D14): the length sent is k + 1 or k, where k is the least index of a NUL or 15, or 0 under `TransmitNothing` with `done`
clear; it is at most 15. -/
def Obligations.LengthSentFollowsTheFirstNul : Prop :=
  ∀ s : State, ∃ k, k ≤ 15 ∧ (∀ i : BufIdx, i.val < k → s.readBuf i ≠ 0x00) ∧ (∀ i : BufIdx, i.val = k → s.readBuf i = 0x00) ∧
    txLength s ≤ 15 ∧
    txLength s =
      if s.cfg.stalePolicy = .transmitNothing ∧ s.done = false then 0
      else if s.cfg.txSendNul = true ∧ k < 15 then k + 1 else k

/-- R164 (its corner case, the spec's own derivation from R51): after a finalised pass the length is at most 14. -/
def Obligations.FinalisedReadingHasAtMost14Characters : Prop :=
  ∀ s : State, BlockInv s → s.done = true → txLength s ≤ 14

/-- R168 (the register and its fill bit: D10; one bit a tick: D16): an admitted TICK with bits left drives the pin with the lowest bit of
the register, shifts it right and takes one from the count. The premise on the register's range is an invariant of every step. -/
def Obligations.TickEmitsTheLowestBit : Prop :=
  ∀ s : State, s.model = .wholeBlock → s.timerRun = true → s.txCount ≠ 0 → s.txShift < 2 ^ s.cfg.txRegWidth →
    exec .tick s = .next { s with
      txShift := s.txShift / 2, txCount := s.txCount - 1, txd := decide (s.txShift % 2 = 1) }

/-- R169 (D16): an admitted TICK with no bit left and more characters to send drives the idle level and loads the next character as TXB
loads it; in a state of a run the pin was at that level already. -/
def Obligations.TickLoadsTheNextCharacter : Prop :=
  ∀ (s : State) (i : BufIdx), s.model = .wholeBlock → s.timerRun = true → s.txCount = 0 → s.ci.toNat + 1 < s.txLen.toNat →
    i.val = s.ci.toNat + 1 →
    (∃ u, exec (.txb (s.readBuf i)) { s with model := .transmitterUnit } = .next u ∧
      exec .tick s = .next { s with txShift := u.txShift, txCount := 9, txd := true, ci := s.ci + 1 }) ∧
    (BlockInv s → s.txd = true)

/-- R170 and R165 (D9, D16): an admitted TICK with no bit left and the last character done drives the idle level, stops the timer, resets
the decoder, enables bus wakes and goes to `Idle`. -/
def Obligations.TickFinishesTheTransmission : Prop :=
  ∀ s : State, s.model = .wholeBlock → s.timerRun = true → s.txCount = 0 → s.ci.toNat + 1 = s.txLen.toNat →
    ∃ t, exec .tick s = .next t ∧
      (∀ i, t.readBuf i = if s.cfg.resetClearsBuffer then s.cfg.bufInit else s.readBuf i) ∧
      t = { s with
        dstate := .init, dp := 0, done := false, buf := t.buf, txd := true,
        timerRun := false, busIrqEn := true, phase := .idle, ci := 0, txLen := 0 }

/-! ## Reset, refusal, admission -/

/-- R221, R220, R33 (D18, D30, D38): SRST, in every model and every state, gives every field of R33 its reset value and the buffer
`P_BUF_INIT` whatever `P_RESET_CLEARS_BUFFER` says; `refused` stays, and so do the model's own fields (log 18). -/
def Obligations.SrstResetsEveryField : Prop :=
  ∀ s : State, ∃ t, exec .srst s = .next t ∧ (∀ i, t.readBuf i = s.cfg.bufInit) ∧
    t = { State.reset with
      cfg := s.cfg, model := s.model, buf := t.buf, refused := s.refused, events := s.events, result := s.result }

/-- R79 and R192 (D35): an event of kind 111 has no step in any model: `refused` is set and nothing else changes (logs 2, 17). -/
def Obligations.ReservedEventIsRefused : Prop :=
  ∀ (s : State) (p : BitVec 13), exec (.reserved p) s = .next { s with refused := true }

/-- R81, R192, R193 (D17): a kind the model does not accept, a WAKE with `bus_irq_en` = 0 and a TICK with `timer_run` = 0 have no step:
`refused` is set and nothing else changes (that this is a next state: log 2). -/
def Obligations.EventNotAdmittedIsRefused : Prop :=
  ∀ (s : State) (x : Snapshot) (c : Byte) (mup : Bool),
    (s.model ≠ .decoderUnit →
      exec (.step x) s = .next { s with refused := true } ∧ exec .drst s = .next { s with refused := true }) ∧
    (s.model ≠ .transmitterUnit →
      exec (.txb c) s = .next { s with refused := true } ∧ exec .txn s = .next { s with refused := true }) ∧
    (s.model ≠ .wholeBlock ∨ s.busIrqEn = false → exec (.wake mup x) s = .next { s with refused := true }) ∧
    (s.model ≠ .wholeBlock ∨ s.timerRun = false → exec .tick s = .next { s with refused := true })

/-- R193, R197 (D17, D28; from R34 (a); a refusal as a next state: log 2): in a state that meets the invariants the whole block admits
exactly one of WAKE and TICK, and the one it does not admit is refused. -/
def Obligations.ExactlyOneOfWakeAndTickIsAdmitted : Prop :=
  ∀ (s : State) (mup : Bool) (x : Snapshot), BlockInv s → s.model = .wholeBlock → s.refused = false →
    (s.phase ≠ .transmitting →
      (∃ t, exec (.wake mup x) s = .next t ∧ t.refused = false) ∧ exec .tick s = .next { s with refused := true }) ∧
    (s.phase = .transmitting →
      exec (.wake mup x) s = .next { s with refused := true } ∧ ∃ t, exec .tick s = .next t ∧ t.refused = false)

/-! ## The whole machine -/

/-- R34 (the spec's own derivation) and what goes with it (`BlockInv`): every step keeps the invariants, in all three models and for all
parameters. -/
def Obligations.EveryStepKeepsTheInvariants : Prop := ∀ s t : State, BlockInv s → step s = .next t → BlockInv t

/-- R190 (from the rules of 41, 42 and 43; that a refusal is a next state is log 2): in a state that meets the invariants every step has a
next state: no event offered there ever stops the machine. -/
def Obligations.EveryStepHasANextState : Prop := ∀ s : State, BlockInv s → ∃ t, step s = .next t

/-- R33, R192 (D38; logs 3, 4): no step writes the parameters or the model, nothing clears `refused`, and a step that sets it changes no
field of R33. That such a step consumes the offer is the model's reading (log 2), and that it clears the result port is the model's choice
(log 7). -/
def Obligations.RefusedIsStickyAndChangesNothingElse : Prop :=
  ∀ s t : State, step s = .next t →
    t.cfg = s.cfg ∧ t.model = s.model ∧ (s.refused = true → t.refused = true) ∧
    (s.refused = false → t.refused = true →
      sameDecoder s t ∧ sameTransmitter s t ∧ sameScheduler s t ∧ t.events = s.events.tail ∧ t.result = none)

/-- R34 (e), R63, R174, R229 (the spec's own derivations): while a transmission goes on no step writes a field of the decoder, so the
buffer being sent is frozen; nor does it change the length. -/
def Obligations.BufferIsFrozenWhileTransmitting : Prop :=
  ∀ s t : State, BlockInv s → s.phase = .transmitting → step s = .next t → t.phase = .transmitting →
    sameDecoder s t ∧ t.txLen = s.txLen

/-- R20, R28, R29, R52: STEP and DRST write no field of the transmitter or the scheduler, and TXB and TXN none of the decoder (no byte of
the buffer) or the scheduler; none of them takes an offer, and only TXN gives a result (the offers and the result port: logs 1, 7). -/
def Obligations.UnitEventsStayInTheirUnit : Prop :=
  ∀ (s t : State) (x : Snapshot) (c : Byte),
    (exec (.step x) s = .next t ∨ exec .drst s = .next t →
      sameTransmitter s t ∧ sameScheduler s t ∧ t.events = s.events ∧ t.result = s.result) ∧
    (exec (.txb c) s = .next t ∨ exec .txn s = .next t → sameDecoder s t ∧ sameScheduler s t ∧ t.events = s.events) ∧
    (exec (.txb c) s = .next t → t.result = s.result)

/-- R161 to R170: a WAKE never moves the pin and, with MUP high, writes no field of the transmitter and none of the scheduler but
`phase`; a TICK that does not end the transmit phase writes no field of the decoder (no byte of the buffer); neither takes an offer
nor gives a result (D15, D16; logs 1, 7). -/
def Obligations.WakeAndTickFrames : Prop :=
  ∀ (s t : State) (x : Snapshot) (mup : Bool),
    (exec (.wake mup x) s = .next t → t.txd = s.txd ∧ t.events = s.events ∧ t.result = s.result) ∧
    (exec (.wake true x) s = .next t →
      sameTransmitter s t ∧ t.busIrqEn = s.busIrqEn ∧ t.timerRun = s.timerRun ∧ t.ci = s.ci ∧ t.txLen = s.txLen) ∧
    (exec .tick s = .next t → t.events = s.events ∧ t.result = s.result ∧
      (s.txCount ≠ 0 ∨ s.ci.toNat + 1 < s.txLen.toNat →
        sameDecoder s t ∧ t.phase = s.phase ∧ t.busIrqEn = s.busIrqEn ∧ t.timerRun = s.timerRun ∧ t.txLen = s.txLen))

/-- R176, R236 (D16, D38): during a transmission of the whole block every TICK is admitted and pays exactly one of the ticks owed, down to
none in `Idle`. -/
def Obligations.EachTickPaysOneTickOwed : Prop :=
  ∀ s : State, BlockInv s → s.model = .wholeBlock → s.phase = .transmitting →
    ∃ t, exec .tick s = .next t ∧ t.refused = s.refused ∧ ticksOwed t + 1 = ticksOwed s ∧
      (t.phase = .idle ↔ ticksOwed t = 0)

/-- R176, R170, R236 (D16): from the falling edge, exactly 10·L ticks later the phase is `Idle` and the run is complete if nothing was
refused; after fewer ticks the block is still transmitting. -/
def Obligations.TransmissionTakesTenTicksPerCharacter : Prop :=
  ∀ (s : State) (x : Snapshot), BlockInv s → s.model = .wholeBlock → s.phase = .capturing → txLength s ≠ 0 → s.refused = false →
    (∃ t, runEvents (.wake false x :: List.replicate (10 * txLength s) .tick) s = .next t ∧ t.phase = .idle ∧ complete t) ∧
    ∀ n, n < 10 * txLength s →
      ∃ u, runEvents (.wake false x :: List.replicate n .tick) s = .next u ∧ u.phase = .transmitting

/-- R53, R54, R164, R168 to R172 (D10, D16): from the falling edge, the pin after tick 10·j + k + 1 is bit k of the j-th character's
period: the start bit 0, its seven data bits least significant first, the stop bit 1, and one idle period at 1; for every character of
the reading in ascending index. -/
def Obligations.LineCarriesTheReadingBitByBit : Prop :=
  ∀ (s : State) (x : Snapshot) (j : BufIdx) (k : Nat), BlockInv s → s.model = .wholeBlock → s.phase = .capturing →
    j.val < txLength s → k < 10 →
    ∃ t, runEvents (.wake false x :: List.replicate (10 * j.val + k + 1) .tick) s = .next t ∧
      t.txd = if k = 0 then false else if k ≤ 7 then (s.readBuf j).getLsbD (k - 1) else true

/-! ## Launch -/

/-- R235 (D39), R34: for all parameters, a clean launch of the whole block meets every invariant, and a clean launch of a unit those on
its own fields, whatever the other fields hold. -/
def Obligations.CleanLaunchMeetsTheInvariants : Prop :=
  ∀ s : State, cleanLaunch s → s.refused = false ∧
    (s.model = .wholeBlock → BlockInv s) ∧
    (s.model = .decoderUnit → s.dp.toNat ≤ 6 ∧ s.done = false ∧ Memory.wf s.cfg.bufInit s.buf) ∧
    (s.model = .transmitterUnit → s.txCount.toNat ≤ 9 ∧ s.txShift < 2 ^ s.cfg.txRegWidth)
end

