-- ==== Sys2Proof/Laws/Memory.lean ====
section
/-! SUPPORT. The reading buffer: a read after a write, and the canonical form kept by every operation. -/

namespace Sys2Proof.Machine

@[simp] theorem Memory.get_nil (d : Byte) (a : Nat) : Memory.get d a [] = d := rfl

theorem Memory.get_erase_same (d : Byte) (a : Nat) (m : Memory) : Memory.get d a (Memory.erase a m) = d := by
  induction m with
  | nil => rfl
  | cons c m ih => by_cases h : c.1 = a <;> simp [Memory.erase, Memory.get, h, ih]

theorem Memory.get_erase_other (d : Byte) {a b : Nat} (hab : b ≠ a) (m : Memory) :
    Memory.get d b (Memory.erase a m) = Memory.get d b m := by
  induction m with
  | nil => rfl
  | cons c m ih =>
    by_cases h : c.1 = a
    · simp [Memory.erase, Memory.get, h, ih, hab.symm]
    · simp [Memory.erase, Memory.get, h, ih]

theorem Memory.get_insert_other (d : Byte) {a b : Nat} (hab : b ≠ a) (v : Byte) (m : Memory) :
    Memory.get d b (Memory.insert a v m) = Memory.get d b m := by
  induction m with
  | nil => simp [Memory.insert, Memory.get, hab.symm]
  | cons c m ih =>
    by_cases h : a < c.1
    · simp [Memory.insert, Memory.get, h, hab.symm]
    · simp [Memory.insert, Memory.get, h, ih]

theorem Memory.get_insert_erased (d : Byte) (a : Nat) (v : Byte) (m : Memory) :
    Memory.get d a (Memory.insert a v (Memory.erase a m)) = v := by
  induction m with
  | nil => simp [Memory.erase, Memory.insert, Memory.get]
  | cons c m ih =>
    by_cases h : c.1 = a
    · simpa [Memory.erase, h] using ih
    · by_cases hlt : a < c.1
      · simp [Memory.erase, Memory.insert, Memory.get, h, hlt]
      · simpa [Memory.erase, Memory.insert, Memory.get, h, hlt] using ih

/-- A read of the index just written gives the byte written. -/
@[simp] theorem Memory.get_set_same (d : Byte) (a : BufIdx) (v : Byte) (m : Memory) :
    Memory.get d a.val (Memory.set d a v m) = v := by
  unfold Memory.set
  split
  · next h => rw [Memory.get_erase_same, h]
  · exact Memory.get_insert_erased d a v m

/-- A read of any other index gives what it gave before. -/
theorem Memory.get_set_other (d : Byte) {a : BufIdx} {b : Nat} (hab : b ≠ a.val) (v : Byte) (m : Memory) :
    Memory.get d b (Memory.set d a v m) = Memory.get d b m := by
  unfold Memory.set
  split
  · exact Memory.get_erase_other d hab m
  · rw [Memory.get_insert_other d hab, Memory.get_erase_other d hab]

/-- A read after a write, both cases at once. -/
theorem Memory.get_set (d : Byte) (a : BufIdx) (b : Nat) (v : Byte) (m : Memory) :
    Memory.get d b (Memory.set d a v m) = if b = a.val then v else Memory.get d b m := by
  split
  · next h => rw [h, Memory.get_set_same]
  · next h => exact Memory.get_set_other d h v m

/-- A read of an index that a list of writes does not name gives what it gave before. -/
theorem Memory.get_setMany_other (d : Byte) {b : Nat} (ws : List (BufIdx × Byte)) (m : Memory)
    (h : ∀ w ∈ ws, b ≠ w.1.val) : Memory.get d b (Memory.setMany d ws m) = Memory.get d b m := by
  induction ws generalizing m with
  | nil => rfl
  | cons w ws ih =>
    rw [Memory.setMany, ih _ fun v hv => h v (List.mem_cons_of_mem _ hv), Memory.get_set_other d (h w List.mem_cons_self)]

theorem Memory.mem_erase {a : Nat} {m : Memory} {c : Host.Cell} : c ∈ Memory.erase a m ↔ c ∈ m ∧ c.1 ≠ a := by
  induction m with
  | nil => simp [Memory.erase]
  | cons b m ih =>
    by_cases h : b.1 = a
    · simp only [Memory.erase, h, if_true, ih, List.mem_cons]
      constructor
      · exact fun ⟨hm, hn⟩ => ⟨.inr hm, hn⟩
      · rintro ⟨rfl | hm, hn⟩
        · exact absurd h hn
        · exact ⟨hm, hn⟩
    · simp only [Memory.erase, h, if_false, ih, List.mem_cons]
      constructor
      · rintro (rfl | ⟨hm, hn⟩)
        · exact ⟨.inl rfl, h⟩
        · exact ⟨.inr hm, hn⟩
      · rintro ⟨rfl | hm, hn⟩
        · exact .inl rfl
        · exact .inr ⟨hm, hn⟩

theorem Memory.mem_insert {a : Nat} {v : Byte} {m : Memory} {c : Host.Cell} :
    c ∈ Memory.insert a v m ↔ c = (a, v) ∨ c ∈ m := by
  induction m with
  | nil => simp [Memory.insert]
  | cons b m ih =>
    by_cases h : a < b.1
    · simp [Memory.insert, h]
    · simp only [Memory.insert, h, if_false, List.mem_cons, ih]
      tauto

theorem Memory.erase_wf {d : Byte} {m : Memory} (a : Nat) (h : Memory.wf d m) : Memory.wf d (Memory.erase a m) := by
  refine ⟨?_, fun c hc => h.2 c (Memory.mem_erase.mp hc).1⟩
  have hp := h.1
  clear h
  induction m with
  | nil => simp [Memory.erase]
  | cons b m ih =>
    rw [List.pairwise_cons] at hp
    by_cases hb : b.1 = a
    · simpa [Memory.erase, hb] using ih hp.2
    · simp only [Memory.erase, hb, if_false, List.pairwise_cons]
      exact ⟨fun c hc => hp.1 c (Memory.mem_erase.mp hc).1, ih hp.2⟩

theorem Memory.insert_wf {d : Byte} {m : Memory} {a : Nat} {v : Byte} (h : Memory.wf d m) (ha : a < 15) (hv : v ≠ d)
    (hfree : ∀ c ∈ m, c.1 ≠ a) : Memory.wf d (Memory.insert a v m) := by
  refine ⟨?_, fun c hc => ?_⟩
  · have hp := h.1
    clear h
    induction m with
    | nil => simp [Memory.insert]
    | cons b m ih =>
      have hp' := List.pairwise_cons.mp hp
      by_cases hb : a < b.1
      · simp only [Memory.insert, hb, if_true]
        refine List.pairwise_cons.mpr ⟨fun c hc => ?_, hp⟩
        rcases List.mem_cons.mp hc with rfl | hc
        · exact hb
        · exact Nat.lt_trans hb (hp'.1 c hc)
      · simp only [Memory.insert, hb, if_false, List.pairwise_cons]
        refine ⟨fun c hc => ?_, ih (fun c hc => hfree c (List.mem_cons_of_mem _ hc)) hp'.2⟩
        rcases Memory.mem_insert.mp hc with rfl | hc
        · have := hfree b List.mem_cons_self
          show b.1 < a
          omega
        · exact hp'.1 c hc
  · rcases Memory.mem_insert.mp hc with rfl | hc
    · exact ⟨ha, hv⟩
    · exact h.2 c hc

/-- A write keeps the canonical form. -/
theorem Memory.set_wf {d : Byte} {m : Memory} (a : BufIdx) (v : Byte) (h : Memory.wf d m) :
    Memory.wf d (Memory.set d a v m) := by
  unfold Memory.set
  split
  · exact Memory.erase_wf _ h
  · next hv => exact Memory.insert_wf (Memory.erase_wf _ h) a.isLt hv fun c hc => (Memory.mem_erase.mp hc).2

/-- Several writes keep the canonical form. -/
theorem Memory.setMany_wf {d : Byte} {m : Memory} (ws : List (BufIdx × Byte)) (h : Memory.wf d m) :
    Memory.wf d (Memory.setMany d ws m) := by
  induction ws generalizing m with
  | nil => exact h
  | cons w ws ih => exact ih (Memory.set_wf w.1 w.2 h)

theorem Memory.nil_wf (d : Byte) : Memory.wf d [] := by simp [Memory.wf]

/-- The buffer after reset has the canonical form. -/
theorem reset_buf_wf : Memory.wf State.reset.cfg.bufInit State.reset.buf := Memory.nil_wf _

theorem Memory.get_eq_dflt {d : Byte} {a : Nat} {m : Memory} (h : ∀ c ∈ m, c.1 ≠ a) : Memory.get d a m = d := by
  induction m with
  | nil => rfl
  | cons c m ih =>
    have hc := h c List.mem_cons_self
    simpa [Memory.get, hc] using ih fun b hb => h b (List.mem_cons_of_mem _ hb)

theorem Memory.wf_tail {d : Byte} {c : Host.Cell} {m : Memory} (h : Memory.wf d (c :: m)) : Memory.wf d m :=
  ⟨(List.pairwise_cons.mp h.1).2, fun b hb => h.2 b (List.mem_cons_of_mem _ hb)⟩

theorem Memory.get_of_lt_head {d : Byte} {a : Nat} {c : Host.Cell} {m : Memory} (h : Memory.wf d (c :: m)) (ha : a < c.1) :
    Memory.get d a (c :: m) = d := by
  refine Memory.get_eq_dflt fun b hb => ?_
  rcases List.mem_cons.mp hb with rfl | hb
  · omega
  · have := (List.pairwise_cons.mp h.1).1 b hb
    omega

/-- Equal buffers are equal data: two canonical buffers that read alike everywhere are the same list. -/
theorem Memory.ext_of_wf {d : Byte} {m m' : Memory} (h : Memory.wf d m) (h' : Memory.wf d m')
    (hget : ∀ a, Memory.get d a m = Memory.get d a m') : m = m' := by
  induction m generalizing m' with
  | nil =>
    cases m' with
    | nil => rfl
    | cons c m' =>
      have := hget c.1
      simp only [Memory.get, if_true] at this
      exact absurd this.symm (h'.2 c List.mem_cons_self).2
  | cons c m ih =>
    cases m' with
    | nil =>
      have := hget c.1
      simp only [Memory.get, if_true] at this
      exact absurd this (h.2 c List.mem_cons_self).2
    | cons c' m' =>
      have hkey : c.1 = c'.1 := by
        rcases Nat.lt_trichotomy c.1 c'.1 with hlt | heq | hgt
        · have := hget c.1
          rw [Memory.get_of_lt_head h' hlt] at this
          simp only [Memory.get, if_true] at this
          exact absurd this (h.2 c List.mem_cons_self).2
        · exact heq
        · have := hget c'.1
          rw [Memory.get_of_lt_head h hgt] at this
          simp only [Memory.get, if_true] at this
          exact absurd this.symm (h'.2 c' List.mem_cons_self).2
      have hval : c.2 = c'.2 := by
        have := hget c.1
        simpa [Memory.get, hkey] using this
      have htail : m = m' := by
        refine ih (Memory.wf_tail h) (Memory.wf_tail h') fun a => ?_
        by_cases ha : c.1 = a
        · subst ha
          rw [Memory.get_eq_dflt fun b hb => Nat.ne_of_gt ((List.pairwise_cons.mp h.1).1 b hb),
            Memory.get_eq_dflt fun b hb => Nat.ne_of_gt (hkey ▸ (List.pairwise_cons.mp h'.1).1 b hb)]
        · have := hget a
          rw [hkey] at ha
          simpa [Memory.get, hkey, ha] using this
      rw [Prod.ext hkey hval, htail]

end Sys2Proof.Machine
end

