-- ==== Sys2Proof/Laws/State.lean ====
section
/-! SUPPORT. One lemma per field per update of the state: what each shared update leaves in each field. Later proofs cite these (as
simp lemmas) and unfold no record update. -/

namespace Sys2Proof.Machine

variable (s : State)

/-! ### `refuseEvent` -/

@[simp] theorem refuseEvent_cfg : (refuseEvent s).cfg = s.cfg := rfl
@[simp] theorem refuseEvent_model : (refuseEvent s).model = s.model := rfl
@[simp] theorem refuseEvent_dstate : (refuseEvent s).dstate = s.dstate := rfl
@[simp] theorem refuseEvent_dp : (refuseEvent s).dp = s.dp := rfl
@[simp] theorem refuseEvent_done : (refuseEvent s).done = s.done := rfl
@[simp] theorem refuseEvent_buf : (refuseEvent s).buf = s.buf := rfl
@[simp] theorem refuseEvent_txShift : (refuseEvent s).txShift = s.txShift := rfl
@[simp] theorem refuseEvent_txCount : (refuseEvent s).txCount = s.txCount := rfl
@[simp] theorem refuseEvent_phase : (refuseEvent s).phase = s.phase := rfl
@[simp] theorem refuseEvent_busIrqEn : (refuseEvent s).busIrqEn = s.busIrqEn := rfl
@[simp] theorem refuseEvent_timerRun : (refuseEvent s).timerRun = s.timerRun := rfl
@[simp] theorem refuseEvent_ci : (refuseEvent s).ci = s.ci := rfl
@[simp] theorem refuseEvent_txLen : (refuseEvent s).txLen = s.txLen := rfl
@[simp] theorem refuseEvent_txd : (refuseEvent s).txd = s.txd := rfl
@[simp] theorem refuseEvent_refused : (refuseEvent s).refused = true := rfl
@[simp] theorem refuseEvent_events : (refuseEvent s).events = s.events := rfl
@[simp] theorem refuseEvent_result : (refuseEvent s).result = s.result := rfl

/-! ### `systemReset` -/

@[simp] theorem systemReset_cfg : (systemReset s).cfg = s.cfg := rfl
@[simp] theorem systemReset_model : (systemReset s).model = s.model := rfl
@[simp] theorem systemReset_dstate : (systemReset s).dstate = .init := rfl
@[simp] theorem systemReset_dp : (systemReset s).dp = 0 := rfl
@[simp] theorem systemReset_done : (systemReset s).done = false := rfl
@[simp] theorem systemReset_buf : (systemReset s).buf = [] := rfl
@[simp] theorem systemReset_txShift : (systemReset s).txShift = 0 := rfl
@[simp] theorem systemReset_txCount : (systemReset s).txCount = 0 := rfl
@[simp] theorem systemReset_phase : (systemReset s).phase = .idle := rfl
@[simp] theorem systemReset_busIrqEn : (systemReset s).busIrqEn = true := rfl
@[simp] theorem systemReset_timerRun : (systemReset s).timerRun = false := rfl
@[simp] theorem systemReset_ci : (systemReset s).ci = 0 := rfl
@[simp] theorem systemReset_txLen : (systemReset s).txLen = 0 := rfl
@[simp] theorem systemReset_txd : (systemReset s).txd = true := rfl
@[simp] theorem systemReset_refused : (systemReset s).refused = s.refused := rfl
@[simp] theorem systemReset_events : (systemReset s).events = s.events := rfl
@[simp] theorem systemReset_result : (systemReset s).result = s.result := rfl

/-! ### `takeOffer` -/

@[simp] theorem takeOffer_cfg (rest : List Offer) : (takeOffer rest s).cfg = s.cfg := rfl
@[simp] theorem takeOffer_model (rest : List Offer) : (takeOffer rest s).model = s.model := rfl
@[simp] theorem takeOffer_dstate (rest : List Offer) : (takeOffer rest s).dstate = s.dstate := rfl
@[simp] theorem takeOffer_dp (rest : List Offer) : (takeOffer rest s).dp = s.dp := rfl
@[simp] theorem takeOffer_done (rest : List Offer) : (takeOffer rest s).done = s.done := rfl
@[simp] theorem takeOffer_buf (rest : List Offer) : (takeOffer rest s).buf = s.buf := rfl
@[simp] theorem takeOffer_txShift (rest : List Offer) : (takeOffer rest s).txShift = s.txShift := rfl
@[simp] theorem takeOffer_txCount (rest : List Offer) : (takeOffer rest s).txCount = s.txCount := rfl
@[simp] theorem takeOffer_phase (rest : List Offer) : (takeOffer rest s).phase = s.phase := rfl
@[simp] theorem takeOffer_busIrqEn (rest : List Offer) : (takeOffer rest s).busIrqEn = s.busIrqEn := rfl
@[simp] theorem takeOffer_timerRun (rest : List Offer) : (takeOffer rest s).timerRun = s.timerRun := rfl
@[simp] theorem takeOffer_ci (rest : List Offer) : (takeOffer rest s).ci = s.ci := rfl
@[simp] theorem takeOffer_txLen (rest : List Offer) : (takeOffer rest s).txLen = s.txLen := rfl
@[simp] theorem takeOffer_txd (rest : List Offer) : (takeOffer rest s).txd = s.txd := rfl
@[simp] theorem takeOffer_refused (rest : List Offer) : (takeOffer rest s).refused = s.refused := rfl
@[simp] theorem takeOffer_events (rest : List Offer) : (takeOffer rest s).events = rest := rfl
@[simp] theorem takeOffer_result (rest : List Offer) : (takeOffer rest s).result = none := rfl

/-! ### `startPass` -/

@[simp] theorem startPass_cfg : (startPass s).cfg = s.cfg := rfl
@[simp] theorem startPass_model : (startPass s).model = s.model := rfl
@[simp] theorem startPass_dstate : (startPass s).dstate = .digit6 := rfl
@[simp] theorem startPass_dp : (startPass s).dp = 0 := rfl
@[simp] theorem startPass_done : (startPass s).done = s.done := rfl
@[simp] theorem startPass_buf : (startPass s).buf = s.buf := rfl
@[simp] theorem startPass_txShift : (startPass s).txShift = s.txShift := rfl
@[simp] theorem startPass_txCount : (startPass s).txCount = s.txCount := rfl
@[simp] theorem startPass_phase : (startPass s).phase = s.phase := rfl
@[simp] theorem startPass_busIrqEn : (startPass s).busIrqEn = s.busIrqEn := rfl
@[simp] theorem startPass_timerRun : (startPass s).timerRun = s.timerRun := rfl
@[simp] theorem startPass_ci : (startPass s).ci = s.ci := rfl
@[simp] theorem startPass_txLen : (startPass s).txLen = s.txLen := rfl
@[simp] theorem startPass_txd : (startPass s).txd = s.txd := rfl
@[simp] theorem startPass_refused : (startPass s).refused = s.refused := rfl
@[simp] theorem startPass_events : (startPass s).events = s.events := rfl
@[simp] theorem startPass_result : (startPass s).result = s.result := rfl

/-! ### `recordDigit` -/

@[simp] theorem recordDigit_cfg (n : BitVec 3) (x : Snapshot) : (recordDigit n x s).cfg = s.cfg := rfl
@[simp] theorem recordDigit_model (n : BitVec 3) (x : Snapshot) : (recordDigit n x s).model = s.model := rfl
@[simp] theorem recordDigit_dstate (n : BitVec 3) (x : Snapshot) : (recordDigit n x s).dstate = s.dstate := rfl
@[simp] theorem recordDigit_dp (n : BitVec 3) (x : Snapshot) : (recordDigit n x s).dp = recordedDp n x.dec s.dp := rfl
@[simp] theorem recordDigit_done (n : BitVec 3) (x : Snapshot) : (recordDigit n x s).done = s.done := rfl
@[simp] theorem recordDigit_txShift (n : BitVec 3) (x : Snapshot) : (recordDigit n x s).txShift = s.txShift := rfl
@[simp] theorem recordDigit_txCount (n : BitVec 3) (x : Snapshot) : (recordDigit n x s).txCount = s.txCount := rfl
@[simp] theorem recordDigit_phase (n : BitVec 3) (x : Snapshot) : (recordDigit n x s).phase = s.phase := rfl
@[simp] theorem recordDigit_busIrqEn (n : BitVec 3) (x : Snapshot) : (recordDigit n x s).busIrqEn = s.busIrqEn := rfl
@[simp] theorem recordDigit_timerRun (n : BitVec 3) (x : Snapshot) : (recordDigit n x s).timerRun = s.timerRun := rfl
@[simp] theorem recordDigit_ci (n : BitVec 3) (x : Snapshot) : (recordDigit n x s).ci = s.ci := rfl
@[simp] theorem recordDigit_txLen (n : BitVec 3) (x : Snapshot) : (recordDigit n x s).txLen = s.txLen := rfl
@[simp] theorem recordDigit_txd (n : BitVec 3) (x : Snapshot) : (recordDigit n x s).txd = s.txd := rfl
@[simp] theorem recordDigit_refused (n : BitVec 3) (x : Snapshot) : (recordDigit n x s).refused = s.refused := rfl
@[simp] theorem recordDigit_events (n : BitVec 3) (x : Snapshot) : (recordDigit n x s).events = s.events := rfl
@[simp] theorem recordDigit_result (n : BitVec 3) (x : Snapshot) : (recordDigit n x s).result = s.result := rfl

/-! ### `advanceDigit` -/

@[simp] theorem advanceDigit_cfg (n : BitVec 3) : (advanceDigit n s).cfg = s.cfg := rfl
@[simp] theorem advanceDigit_model (n : BitVec 3) : (advanceDigit n s).model = s.model := rfl
@[simp] theorem advanceDigit_dstate (n : BitVec 3) : (advanceDigit n s).dstate = afterDigit n := rfl
@[simp] theorem advanceDigit_dp (n : BitVec 3) : (advanceDigit n s).dp = s.dp := rfl
@[simp] theorem advanceDigit_done (n : BitVec 3) : (advanceDigit n s).done = s.done := rfl
@[simp] theorem advanceDigit_buf (n : BitVec 3) : (advanceDigit n s).buf = s.buf := rfl
@[simp] theorem advanceDigit_txShift (n : BitVec 3) : (advanceDigit n s).txShift = s.txShift := rfl
@[simp] theorem advanceDigit_txCount (n : BitVec 3) : (advanceDigit n s).txCount = s.txCount := rfl
@[simp] theorem advanceDigit_phase (n : BitVec 3) : (advanceDigit n s).phase = s.phase := rfl
@[simp] theorem advanceDigit_busIrqEn (n : BitVec 3) : (advanceDigit n s).busIrqEn = s.busIrqEn := rfl
@[simp] theorem advanceDigit_timerRun (n : BitVec 3) : (advanceDigit n s).timerRun = s.timerRun := rfl
@[simp] theorem advanceDigit_ci (n : BitVec 3) : (advanceDigit n s).ci = s.ci := rfl
@[simp] theorem advanceDigit_txLen (n : BitVec 3) : (advanceDigit n s).txLen = s.txLen := rfl
@[simp] theorem advanceDigit_txd (n : BitVec 3) : (advanceDigit n s).txd = s.txd := rfl
@[simp] theorem advanceDigit_refused (n : BitVec 3) : (advanceDigit n s).refused = s.refused := rfl
@[simp] theorem advanceDigit_events (n : BitVec 3) : (advanceDigit n s).events = s.events := rfl
@[simp] theorem advanceDigit_result (n : BitVec 3) : (advanceDigit n s).result = s.result := rfl

/-! ### `finalisePass` -/

@[simp] theorem finalisePass_cfg (x : Snapshot) : (finalisePass x s).cfg = s.cfg := rfl
@[simp] theorem finalisePass_model (x : Snapshot) : (finalisePass x s).model = s.model := rfl
@[simp] theorem finalisePass_dstate (x : Snapshot) : (finalisePass x s).dstate = .init := rfl
@[simp] theorem finalisePass_dp (x : Snapshot) : (finalisePass x s).dp = s.dp := rfl
@[simp] theorem finalisePass_done (x : Snapshot) : (finalisePass x s).done = true := rfl
@[simp] theorem finalisePass_buf (x : Snapshot) : (finalisePass x s).buf = Memory.setMany s.cfg.bufInit (finalWrites x s.dp) s.buf := rfl
@[simp] theorem finalisePass_txShift (x : Snapshot) : (finalisePass x s).txShift = s.txShift := rfl
@[simp] theorem finalisePass_txCount (x : Snapshot) : (finalisePass x s).txCount = s.txCount := rfl
@[simp] theorem finalisePass_phase (x : Snapshot) : (finalisePass x s).phase = s.phase := rfl
@[simp] theorem finalisePass_busIrqEn (x : Snapshot) : (finalisePass x s).busIrqEn = s.busIrqEn := rfl
@[simp] theorem finalisePass_timerRun (x : Snapshot) : (finalisePass x s).timerRun = s.timerRun := rfl
@[simp] theorem finalisePass_ci (x : Snapshot) : (finalisePass x s).ci = s.ci := rfl
@[simp] theorem finalisePass_txLen (x : Snapshot) : (finalisePass x s).txLen = s.txLen := rfl
@[simp] theorem finalisePass_txd (x : Snapshot) : (finalisePass x s).txd = s.txd := rfl
@[simp] theorem finalisePass_refused (x : Snapshot) : (finalisePass x s).refused = s.refused := rfl
@[simp] theorem finalisePass_events (x : Snapshot) : (finalisePass x s).events = s.events := rfl
@[simp] theorem finalisePass_result (x : Snapshot) : (finalisePass x s).result = s.result := rfl

/-! ### `decoderReset` -/

@[simp] theorem decoderReset_cfg : (decoderReset s).cfg = s.cfg := rfl
@[simp] theorem decoderReset_model : (decoderReset s).model = s.model := rfl
@[simp] theorem decoderReset_dstate : (decoderReset s).dstate = .init := rfl
@[simp] theorem decoderReset_dp : (decoderReset s).dp = 0 := rfl
@[simp] theorem decoderReset_done : (decoderReset s).done = false := rfl
@[simp] theorem decoderReset_buf : (decoderReset s).buf = if s.cfg.resetClearsBuffer then [] else s.buf := rfl
@[simp] theorem decoderReset_txShift : (decoderReset s).txShift = s.txShift := rfl
@[simp] theorem decoderReset_txCount : (decoderReset s).txCount = s.txCount := rfl
@[simp] theorem decoderReset_phase : (decoderReset s).phase = s.phase := rfl
@[simp] theorem decoderReset_busIrqEn : (decoderReset s).busIrqEn = s.busIrqEn := rfl
@[simp] theorem decoderReset_timerRun : (decoderReset s).timerRun = s.timerRun := rfl
@[simp] theorem decoderReset_ci : (decoderReset s).ci = s.ci := rfl
@[simp] theorem decoderReset_txLen : (decoderReset s).txLen = s.txLen := rfl
@[simp] theorem decoderReset_txd : (decoderReset s).txd = s.txd := rfl
@[simp] theorem decoderReset_refused : (decoderReset s).refused = s.refused := rfl
@[simp] theorem decoderReset_events : (decoderReset s).events = s.events := rfl
@[simp] theorem decoderReset_result : (decoderReset s).result = s.result := rfl

/-! ### `txBegin` -/

@[simp] theorem txBegin_cfg (c : Byte) : (txBegin c s).cfg = s.cfg := rfl
@[simp] theorem txBegin_model (c : Byte) : (txBegin c s).model = s.model := rfl
@[simp] theorem txBegin_dstate (c : Byte) : (txBegin c s).dstate = s.dstate := rfl
@[simp] theorem txBegin_dp (c : Byte) : (txBegin c s).dp = s.dp := rfl
@[simp] theorem txBegin_done (c : Byte) : (txBegin c s).done = s.done := rfl
@[simp] theorem txBegin_buf (c : Byte) : (txBegin c s).buf = s.buf := rfl
@[simp] theorem txBegin_txShift (c : Byte) : (txBegin c s).txShift = (shiftLoad s.cfg.txRegWidth c).toNat := rfl
@[simp] theorem txBegin_txCount (c : Byte) : (txBegin c s).txCount = 9 := rfl
@[simp] theorem txBegin_phase (c : Byte) : (txBegin c s).phase = s.phase := rfl
@[simp] theorem txBegin_busIrqEn (c : Byte) : (txBegin c s).busIrqEn = s.busIrqEn := rfl
@[simp] theorem txBegin_timerRun (c : Byte) : (txBegin c s).timerRun = s.timerRun := rfl
@[simp] theorem txBegin_ci (c : Byte) : (txBegin c s).ci = s.ci := rfl
@[simp] theorem txBegin_txLen (c : Byte) : (txBegin c s).txLen = s.txLen := rfl
@[simp] theorem txBegin_txd (c : Byte) : (txBegin c s).txd = s.txd := rfl
@[simp] theorem txBegin_refused (c : Byte) : (txBegin c s).refused = s.refused := rfl
@[simp] theorem txBegin_events (c : Byte) : (txBegin c s).events = s.events := rfl
@[simp] theorem txBegin_result (c : Byte) : (txBegin c s).result = s.result := rfl

/-! ### `finishTransmit` -/

@[simp] theorem finishTransmit_cfg : (finishTransmit s).cfg = s.cfg := rfl
@[simp] theorem finishTransmit_model : (finishTransmit s).model = s.model := rfl
@[simp] theorem finishTransmit_dstate : (finishTransmit s).dstate = .init := rfl
@[simp] theorem finishTransmit_dp : (finishTransmit s).dp = 0 := rfl
@[simp] theorem finishTransmit_done : (finishTransmit s).done = false := rfl
@[simp] theorem finishTransmit_buf : (finishTransmit s).buf = if s.cfg.resetClearsBuffer then [] else s.buf := rfl
@[simp] theorem finishTransmit_txShift : (finishTransmit s).txShift = s.txShift := rfl
@[simp] theorem finishTransmit_txCount : (finishTransmit s).txCount = s.txCount := rfl
@[simp] theorem finishTransmit_phase : (finishTransmit s).phase = .idle := rfl
@[simp] theorem finishTransmit_busIrqEn : (finishTransmit s).busIrqEn = true := rfl
@[simp] theorem finishTransmit_timerRun : (finishTransmit s).timerRun = false := rfl
@[simp] theorem finishTransmit_ci : (finishTransmit s).ci = 0 := rfl
@[simp] theorem finishTransmit_txLen : (finishTransmit s).txLen = 0 := rfl
@[simp] theorem finishTransmit_txd : (finishTransmit s).txd = s.txd := rfl
@[simp] theorem finishTransmit_refused : (finishTransmit s).refused = s.refused := rfl
@[simp] theorem finishTransmit_events : (finishTransmit s).events = s.events := rfl
@[simp] theorem finishTransmit_result : (finishTransmit s).result = s.result := rfl

/-! ### `startTransmit` -/

@[simp] theorem startTransmit_cfg (len : Nat) : (startTransmit len s).cfg = s.cfg := rfl
@[simp] theorem startTransmit_model (len : Nat) : (startTransmit len s).model = s.model := rfl
@[simp] theorem startTransmit_dstate (len : Nat) : (startTransmit len s).dstate = s.dstate := rfl
@[simp] theorem startTransmit_dp (len : Nat) : (startTransmit len s).dp = s.dp := rfl
@[simp] theorem startTransmit_done (len : Nat) : (startTransmit len s).done = s.done := rfl
@[simp] theorem startTransmit_buf (len : Nat) : (startTransmit len s).buf = s.buf := rfl
@[simp] theorem startTransmit_txShift (len : Nat) : (startTransmit len s).txShift = (shiftLoad s.cfg.txRegWidth (s.readBuf 0)).toNat := rfl
@[simp] theorem startTransmit_txCount (len : Nat) : (startTransmit len s).txCount = 9 := rfl
@[simp] theorem startTransmit_phase (len : Nat) : (startTransmit len s).phase = .transmitting := rfl
@[simp] theorem startTransmit_busIrqEn (len : Nat) : (startTransmit len s).busIrqEn = s.busIrqEn := rfl
@[simp] theorem startTransmit_timerRun (len : Nat) : (startTransmit len s).timerRun = true := rfl
@[simp] theorem startTransmit_ci (len : Nat) : (startTransmit len s).ci = 0 := rfl
@[simp] theorem startTransmit_txLen (len : Nat) : (startTransmit len s).txLen = BitVec.ofNat 4 len := rfl
@[simp] theorem startTransmit_txd (len : Nat) : (startTransmit len s).txd = s.txd := rfl
@[simp] theorem startTransmit_refused (len : Nat) : (startTransmit len s).refused = s.refused := rfl
@[simp] theorem startTransmit_events (len : Nat) : (startTransmit len s).events = s.events := rfl
@[simp] theorem startTransmit_result (len : Nat) : (startTransmit len s).result = s.result := rfl

/-! ### `loadNext` -/

@[simp] theorem loadNext_cfg (next : BufIdx) : (loadNext next s).cfg = s.cfg := rfl
@[simp] theorem loadNext_model (next : BufIdx) : (loadNext next s).model = s.model := rfl
@[simp] theorem loadNext_dstate (next : BufIdx) : (loadNext next s).dstate = s.dstate := rfl
@[simp] theorem loadNext_dp (next : BufIdx) : (loadNext next s).dp = s.dp := rfl
@[simp] theorem loadNext_done (next : BufIdx) : (loadNext next s).done = s.done := rfl
@[simp] theorem loadNext_buf (next : BufIdx) : (loadNext next s).buf = s.buf := rfl
@[simp] theorem loadNext_txShift (next : BufIdx) : (loadNext next s).txShift = (shiftLoad s.cfg.txRegWidth (s.readBuf next)).toNat := rfl
@[simp] theorem loadNext_txCount (next : BufIdx) : (loadNext next s).txCount = 9 := rfl
@[simp] theorem loadNext_phase (next : BufIdx) : (loadNext next s).phase = s.phase := rfl
@[simp] theorem loadNext_busIrqEn (next : BufIdx) : (loadNext next s).busIrqEn = s.busIrqEn := rfl
@[simp] theorem loadNext_timerRun (next : BufIdx) : (loadNext next s).timerRun = s.timerRun := rfl
@[simp] theorem loadNext_ci (next : BufIdx) : (loadNext next s).ci = BitVec.ofNat 4 next := rfl
@[simp] theorem loadNext_txLen (next : BufIdx) : (loadNext next s).txLen = s.txLen := rfl
@[simp] theorem loadNext_txd (next : BufIdx) : (loadNext next s).txd = true := rfl
@[simp] theorem loadNext_refused (next : BufIdx) : (loadNext next s).refused = s.refused := rfl
@[simp] theorem loadNext_events (next : BufIdx) : (loadNext next s).events = s.events := rfl
@[simp] theorem loadNext_result (next : BufIdx) : (loadNext next s).result = s.result := rfl

/-! ### `lastIdle` -/

@[simp] theorem lastIdle_cfg : (lastIdle s).cfg = s.cfg := rfl
@[simp] theorem lastIdle_model : (lastIdle s).model = s.model := rfl
@[simp] theorem lastIdle_dstate : (lastIdle s).dstate = .init := rfl
@[simp] theorem lastIdle_dp : (lastIdle s).dp = 0 := rfl
@[simp] theorem lastIdle_done : (lastIdle s).done = false := rfl
@[simp] theorem lastIdle_buf : (lastIdle s).buf = if s.cfg.resetClearsBuffer then [] else s.buf := rfl
@[simp] theorem lastIdle_txShift : (lastIdle s).txShift = s.txShift := rfl
@[simp] theorem lastIdle_txCount : (lastIdle s).txCount = s.txCount := rfl
@[simp] theorem lastIdle_phase : (lastIdle s).phase = .idle := rfl
@[simp] theorem lastIdle_busIrqEn : (lastIdle s).busIrqEn = true := rfl
@[simp] theorem lastIdle_timerRun : (lastIdle s).timerRun = false := rfl
@[simp] theorem lastIdle_ci : (lastIdle s).ci = 0 := rfl
@[simp] theorem lastIdle_txLen : (lastIdle s).txLen = 0 := rfl
@[simp] theorem lastIdle_txd : (lastIdle s).txd = true := rfl
@[simp] theorem lastIdle_refused : (lastIdle s).refused = s.refused := rfl
@[simp] theorem lastIdle_events : (lastIdle s).events = s.events := rfl
@[simp] theorem lastIdle_result : (lastIdle s).result = s.result := rfl

/-! ### the two updates with a case of their own -/

theorem txAdvance_zero (h : s.txCount = 0) : txAdvance s = s := if_pos h

theorem txAdvance_pos (h : s.txCount ≠ 0) :
    txAdvance s = { s with txShift := (s.txBits >>> 1).toNat, txCount := s.txCount - 1 } := if_neg h

@[simp] theorem txAdvance_cfg : (txAdvance s).cfg = s.cfg := by unfold txAdvance; split <;> rfl
@[simp] theorem txAdvance_model : (txAdvance s).model = s.model := by unfold txAdvance; split <;> rfl
@[simp] theorem txAdvance_dstate : (txAdvance s).dstate = s.dstate := by unfold txAdvance; split <;> rfl
@[simp] theorem txAdvance_dp : (txAdvance s).dp = s.dp := by unfold txAdvance; split <;> rfl
@[simp] theorem txAdvance_done : (txAdvance s).done = s.done := by unfold txAdvance; split <;> rfl
@[simp] theorem txAdvance_buf : (txAdvance s).buf = s.buf := by unfold txAdvance; split <;> rfl
@[simp] theorem txAdvance_phase : (txAdvance s).phase = s.phase := by unfold txAdvance; split <;> rfl
@[simp] theorem txAdvance_busIrqEn : (txAdvance s).busIrqEn = s.busIrqEn := by unfold txAdvance; split <;> rfl
@[simp] theorem txAdvance_timerRun : (txAdvance s).timerRun = s.timerRun := by unfold txAdvance; split <;> rfl
@[simp] theorem txAdvance_ci : (txAdvance s).ci = s.ci := by unfold txAdvance; split <;> rfl
@[simp] theorem txAdvance_txLen : (txAdvance s).txLen = s.txLen := by unfold txAdvance; split <;> rfl
@[simp] theorem txAdvance_txd : (txAdvance s).txd = s.txd := by unfold txAdvance; split <;> rfl
@[simp] theorem txAdvance_refused : (txAdvance s).refused = s.refused := by unfold txAdvance; split <;> rfl
@[simp] theorem txAdvance_events : (txAdvance s).events = s.events := by unfold txAdvance; split <;> rfl
@[simp] theorem txAdvance_result : (txAdvance s).result = s.result := by unfold txAdvance; split <;> rfl

@[simp] theorem emitBit_cfg : (emitBit s).cfg = s.cfg := txAdvance_cfg s
@[simp] theorem emitBit_model : (emitBit s).model = s.model := txAdvance_model s
@[simp] theorem emitBit_dstate : (emitBit s).dstate = s.dstate := txAdvance_dstate s
@[simp] theorem emitBit_dp : (emitBit s).dp = s.dp := txAdvance_dp s
@[simp] theorem emitBit_done : (emitBit s).done = s.done := txAdvance_done s
@[simp] theorem emitBit_buf : (emitBit s).buf = s.buf := txAdvance_buf s
@[simp] theorem emitBit_phase : (emitBit s).phase = s.phase := txAdvance_phase s
@[simp] theorem emitBit_busIrqEn : (emitBit s).busIrqEn = s.busIrqEn := txAdvance_busIrqEn s
@[simp] theorem emitBit_timerRun : (emitBit s).timerRun = s.timerRun := txAdvance_timerRun s
@[simp] theorem emitBit_ci : (emitBit s).ci = s.ci := txAdvance_ci s
@[simp] theorem emitBit_txLen : (emitBit s).txLen = s.txLen := txAdvance_txLen s
@[simp] theorem emitBit_refused : (emitBit s).refused = s.refused := txAdvance_refused s
@[simp] theorem emitBit_events : (emitBit s).events = s.events := txAdvance_events s
@[simp] theorem emitBit_result : (emitBit s).result = s.result := txAdvance_result s

@[simp] theorem emitBit_txShift : (emitBit s).txShift = (txAdvance s).txShift := rfl
@[simp] theorem emitBit_txCount : (emitBit s).txCount = (txAdvance s).txCount := rfl
@[simp] theorem emitBit_txd : (emitBit s).txd = (txResult s).getLsbD 0 := rfl

end Sys2Proof.Machine
end

