-- ==== Sys2Proof/Laws/Decoder.lean ====
section
/-! SUPPORT. What the bus decoder's operations can do, said once. -/

namespace Sys2Proof.Machine

@[simp] theorem DState.ofCode_code (d : DState) : DState.ofCode d.code = d := by cases d <;> rfl

theorem DState.code_ofCode (c : BitVec 3) : (DState.ofCode c).code = c := by revert c; decide

theorem DState.code_injective {d e : DState} (h : d.code = e.code) : d = e := by
  rw [← DState.ofCode_code d, ← DState.ofCode_code e, h]

/-- In `DigitN` the decoder does the digit step of N. -/
theorem decoderStep_digit {x : Snapshot} {s : State} {n : BitVec 3} (h : s.dstate.code = n) (h1 : 1 ≤ n) (h6 : n ≤ 6) :
    decoderStep x s = digitStep n x s := by
  subst h
  unfold decoderStep
  cases hd : s.dstate <;> simp_all [DState.code]

theorem decoderStep_init {x : Snapshot} {s : State} (h : s.dstate = .init) :
    decoderStep x s = if x.pos = 6 then startPass s else s := by simp [decoderStep, h]

theorem decoderStep_overflow {x : Snapshot} {s : State} (h : s.dstate = .overflowUnit) :
    decoderStep x s = finalisePass x s := by simp [decoderStep, h]

/-- Everything one snapshot can do to the decoder (R110). -/
theorem decoderStep_cases (x : Snapshot) (s : State) :
    (s.dstate = .init ∧ x.pos = 6 ∧ decoderStep x s = startPass s) ∨
    (∃ n, s.dstate.code = n ∧ 1 ≤ n ∧ n ≤ 6 ∧ x.pos = n ∧ decoderStep x s = recordDigit n x s) ∨
    (∃ n, s.dstate.code = n ∧ 1 ≤ n ∧ n ≤ 6 ∧ x.pos = n - 1 ∧ decoderStep x s = advanceDigit n s) ∨
    (s.dstate = .overflowUnit ∧ decoderStep x s = finalisePass x s) ∨
    decoderStep x s = s := by
  have hdigit : ∀ n : BitVec 3, s.dstate.code = n → 1 ≤ n → n ≤ 6 →
      (x.pos = n ∧ decoderStep x s = recordDigit n x s) ∨ (x.pos = n - 1 ∧ decoderStep x s = advanceDigit n s) ∨
        decoderStep x s = s := by
    intro n hn h1 h6
    rw [decoderStep_digit hn h1 h6]
    unfold digitStep
    by_cases hp : x.pos = n
    · exact .inl ⟨hp, if_pos hp⟩
    · by_cases hq : x.pos = n - 1
      · exact .inr (.inl ⟨hq, by rw [if_neg hp, if_pos hq]⟩)
      · exact .inr (.inr (by rw [if_neg hp, if_neg hq]))
  by_cases hi : s.dstate = .init
  · by_cases hp : x.pos = 6
    · exact .inl ⟨hi, hp, by rw [decoderStep_init hi, if_pos hp]⟩
    · exact .inr (.inr (.inr (.inr (by rw [decoderStep_init hi, if_neg hp]))))
  · by_cases ho : s.dstate = .overflowUnit
    · exact .inr (.inr (.inr (.inl ⟨ho, decoderStep_overflow ho⟩)))
    · have hr : 1 ≤ s.dstate.code ∧ s.dstate.code ≤ 6 := by cases hd : s.dstate <;> simp_all [DState.code]
      rcases hdigit _ rfl hr.1 hr.2 with ⟨hp, h⟩ | ⟨hp, h⟩ | h
      · exact .inr (.inl ⟨_, rfl, hr.1, hr.2, hp, h⟩)
      · exact .inr (.inr (.inl ⟨_, rfl, hr.1, hr.2, hp, h⟩))
      · exact .inr (.inr (.inr (.inr h)))

/-- One snapshot writes no field but those of the decoder (R113, R115). -/
theorem decoderStep_frame (x : Snapshot) (s : State) :
    decoderStep x s =
      { s with
        dstate := (decoderStep x s).dstate, dp := (decoderStep x s).dp,
        done := (decoderStep x s).done, buf := (decoderStep x s).buf } := by
  rcases decoderStep_cases x s with ⟨-, -, h⟩ | ⟨n, -, -, -, -, h⟩ | ⟨n, -, -, -, -, h⟩ | ⟨-, h⟩ | h <;> rw [h] <;> rfl

@[simp] theorem decoderStep_cfg (x : Snapshot) (s : State) : (decoderStep x s).cfg = s.cfg := by rw [decoderStep_frame]
@[simp] theorem decoderStep_model (x : Snapshot) (s : State) : (decoderStep x s).model = s.model := by rw [decoderStep_frame]
@[simp] theorem decoderStep_txShift (x : Snapshot) (s : State) : (decoderStep x s).txShift = s.txShift := by rw [decoderStep_frame]
@[simp] theorem decoderStep_txCount (x : Snapshot) (s : State) : (decoderStep x s).txCount = s.txCount := by rw [decoderStep_frame]
@[simp] theorem decoderStep_phase (x : Snapshot) (s : State) : (decoderStep x s).phase = s.phase := by rw [decoderStep_frame]
@[simp] theorem decoderStep_busIrqEn (x : Snapshot) (s : State) : (decoderStep x s).busIrqEn = s.busIrqEn := by rw [decoderStep_frame]
@[simp] theorem decoderStep_timerRun (x : Snapshot) (s : State) : (decoderStep x s).timerRun = s.timerRun := by rw [decoderStep_frame]
@[simp] theorem decoderStep_ci (x : Snapshot) (s : State) : (decoderStep x s).ci = s.ci := by rw [decoderStep_frame]
@[simp] theorem decoderStep_txLen (x : Snapshot) (s : State) : (decoderStep x s).txLen = s.txLen := by rw [decoderStep_frame]
@[simp] theorem decoderStep_txd (x : Snapshot) (s : State) : (decoderStep x s).txd = s.txd := by rw [decoderStep_frame]
@[simp] theorem decoderStep_refused (x : Snapshot) (s : State) : (decoderStep x s).refused = s.refused := by rw [decoderStep_frame]
@[simp] theorem decoderStep_events (x : Snapshot) (s : State) : (decoderStep x s).events = s.events := by rw [decoderStep_frame]
@[simp] theorem decoderStep_result (x : Snapshot) (s : State) : (decoderStep x s).result = s.result := by rw [decoderStep_frame]

/-- What the decoder does depends on no field but its own and the parameters. -/
theorem decoderStep_agree {x : Snapshot} {s u : State} (hc : s.cfg = u.cfg) (hd : s.dstate = u.dstate) (hp : s.dp = u.dp)
    (hn : s.done = u.done) (hb : s.buf = u.buf) :
    (decoderStep x s).dstate = (decoderStep x u).dstate ∧ (decoderStep x s).dp = (decoderStep x u).dp ∧
    (decoderStep x s).done = (decoderStep x u).done ∧ (decoderStep x s).buf = (decoderStep x u).buf := by
  by_cases hi : s.dstate = .init
  · rw [decoderStep_init hi, decoderStep_init (hd ▸ hi)]
    split <;> simp [hd, hp, hn, hb]
  · by_cases ho : s.dstate = .overflowUnit
    · rw [decoderStep_overflow ho, decoderStep_overflow (hd ▸ ho)]
      simp [hc, hp, hb]
    · have hr : 1 ≤ s.dstate.code ∧ s.dstate.code ≤ 6 := by cases hq : s.dstate <;> simp_all [DState.code]
      rw [decoderStep_digit rfl hr.1 hr.2, decoderStep_digit (by rw [hd]) hr.1 hr.2]
      unfold digitStep
      split_ifs <;> simp [recordDigit, hc, hd, hp, hn, hb]

/-- A snapshot keeps the buffer's canonical form. -/
theorem decoderStep_wf {x : Snapshot} {s : State} (h : Memory.wf s.cfg.bufInit s.buf) :
    Memory.wf s.cfg.bufInit (decoderStep x s).buf := by
  rcases decoderStep_cases x s with ⟨-, -, e⟩ | ⟨n, -, -, -, -, e⟩ | ⟨n, -, -, -, -, e⟩ | ⟨-, e⟩ | e <;> rw [e]
  · exact h
  · simp only [recordDigit]
    split
    · exact Memory.set_wf _ _ (Memory.set_wf _ _ h)
    · exact Memory.set_wf _ _ h
  · exact h
  · exact Memory.setMany_wf _ h
  · exact h

/-- A digit and its decimal point never share an index (R119). -/
theorem digitIdx_ne_dotIdx {n : BitVec 3} (h1 : 1 ≤ n) (h6 : n ≤ 6) : digitIdx n n ≠ dotIdx n := by
  revert n; decide

/-- Where a record writes (R113): indices 1 to 7 for the digit, 1 to 6 for the point. -/
theorem digitIdx_range {n d : BitVec 3} (h1 : 1 ≤ n) (h6 : n ≤ 6) : 1 ≤ (digitIdx n d).val ∧ (digitIdx n d).val ≤ 7 := by
  revert n d; decide

theorem dotIdx_range {n : BitVec 3} (h1 : 1 ≤ n) (h6 : n ≤ 6) : 1 ≤ (dotIdx n).val ∧ (dotIdx n).val ≤ 6 := by
  revert n; decide

/-- A record leaves every byte but the digit's and the point's (R113). -/
theorem recordDigit_get_other {n : BitVec 3} {x : Snapshot} {s : State} {a : Nat}
    (hd : a ≠ (digitIdx n (recordedDp n x.dec s.dp)).val) (hp : a ≠ (dotIdx n).val) :
    Memory.get s.cfg.bufInit a (recordDigit n x s).buf = Memory.get s.cfg.bufInit a s.buf := by
  simp only [recordDigit]
  split
  · rw [Memory.get_set_other _ hp, Memory.get_set_other _ hd]
  · rw [Memory.get_set_other _ hd]

/-- Every byte after a record (R113). -/
theorem recordDigit_readBuf (n : BitVec 3) (x : Snapshot) (s : State) (i : BufIdx) :
    (recordDigit n x s).readBuf i =
      if recordedDp n x.dec s.dp = n ∧ i = dotIdx n then charDot
      else if i = digitIdx n (recordedDp n x.dec s.dp) then digitChar s.cfg x.digit
      else s.readBuf i := by
  by_cases h : recordedDp n x.dec s.dp = n
  · simp only [State.readBuf, recordDigit, h, if_true, Memory.get_set, true_and, Fin.ext_iff]
  · simp only [State.readBuf, recordDigit, h, if_false, Memory.get_set, false_and, Fin.ext_iff]

/-- Every byte after a finalisation, as the reads of its writes (R115). -/
theorem finalisePass_readBuf (x : Snapshot) (s : State) (i : BufIdx) :
    (finalisePass x s).readBuf i =
      Memory.get s.cfg.bufInit i.val (Memory.setMany s.cfg.bufInit (finalWrites x s.dp) s.buf) := rfl

/-- Two equal positions in a row from the position above: the first advances, the second records (R113, R114). -/
theorem decoderStep_twice {n : BitVec 3} {x y : Snapshot} {s : State} (h1 : 1 ≤ n) (h5 : n ≤ 5) (hx : x.pos = n) (hy : y.pos = n)
    (hd : s.dstate.code = n + 1) :
    decoderStep y (decoderStep x s) = recordDigit n y { s with dstate := .ofCode n } := by
  have ha : decoderStep x s = { s with dstate := .ofCode n } := by
    rw [decoderStep_digit hd (by bv_omega) (by bv_omega), digitStep, if_neg (by rw [hx]; bv_omega), if_pos (by rw [hx]; bv_omega)]
    have h2 : 2 ≤ n + 1 := by bv_omega
    have he : n + 1 - 1 = n := by bv_omega
    simp only [advanceDigit, afterDigit, h2, if_true, he]
  rw [ha, decoderStep_digit (n := n) (DState.code_ofCode n) h1 (by bv_omega), digitStep, if_pos hy]

/-- No byte of a reading's tail is left without an index (R115). -/
theorem readingTail_fits (a b hasDp : Bool) : (readingTail (unitOf a b hasDp)).length ≤ (tailIdxs hasDp).length := by
  revert a b hasDp; decide

/-- The indices a finalisation writes lie in 0..13 (R51, R56). -/
theorem finalWrites_range (x : Snapshot) (dp : BitVec 3) : ∀ w ∈ finalWrites x dp, w.1.val = 0 ∨ 7 ≤ w.1.val ∧ w.1.val ≤ 13 := by
  intro w hw
  simp only [finalWrites, List.mem_cons] at hw
  rcases hw with rfl | hw
  · exact .inl rfl
  · have h := (List.of_mem_zip hw).1
    refine .inr ?_
    unfold tailIdxs at h
    split at h <;> simp only [List.mem_cons, List.not_mem_nil, or_false] at h <;>
      rcases h with h | h | h | h | h | h <;> rw [h] <;> decide

end Sys2Proof.Machine
end

