-- ==== Sys2Proof/Laws/Exec.lean ====
section
/-! SUPPORT. What processing one event can do, said once: each event refused or its effect, and the step around it. -/

namespace Sys2Proof.Machine

theorem ifAdmitted_yes {i : Instr} {f : State → Host.Outcome State Fault Refusal} {s : State} (h : admitted s i = true) :
    ifAdmitted i f s = f s := if_pos h

theorem ifAdmitted_no {i : Instr} {f : State → Host.Outcome State Fault Refusal} {s : State} (h : admitted s i = false) :
    ifAdmitted i f s = .next (refuseEvent s) := if_neg (by rw [h]; decide)

/-- The effect of an event where it is admitted. -/
def effectOf : Instr → State → Host.Outcome State Fault Refusal
  | .step x, s => .next (decoderStep x s)
  | .drst, s => .next (decoderReset s)
  | .txb c, s => .next (txBegin c s)
  | .txn, s => .next { txAdvance s with result := some (txResult s) }
  | .wake mup x, s => wakeEffect mup x s
  | .tick, s => tickEffect s
  | .srst, s => .next (systemReset s)
  | .reserved _, s => .next (refuseEvent s)

/-- An admitted event has its effect; any other is refused (R192). -/
theorem exec_eq (i : Instr) (s : State) :
    exec i s = if admitted s i then effectOf i s else .next (refuseEvent s) := by
  cases i <;> rfl

theorem exec_admitted {i : Instr} {s : State} (h : admitted s i = true) : exec i s = effectOf i s := by
  rw [exec_eq, if_pos h]

theorem exec_not_admitted {i : Instr} {s : State} (h : admitted s i = false) : exec i s = .next (refuseEvent s) := by
  rw [exec_eq, h]; rfl

theorem step_idle {s : State} (h : s.events = []) : step s = .next s := by simp [step, h, lowPowerWait]

theorem step_offer {s : State} {o : Offer} {rest : List Offer} (h : s.events = o :: rest) :
    step s = match offeredEvent o with
      | some i => exec i (takeOffer rest s)
      | none => .next (refuseEvent (takeOffer rest s)) := by
  simp only [step, h] <;> rfl

/-- Everything a step can do: wait, refuse an offer that stands for no event, or process the event offered. -/
theorem step_cases (s : State) :
    (s.events = [] ∧ step s = .next s) ∨
    (∃ o rest, s.events = o :: rest ∧ offeredEvent o = none ∧ step s = .next (refuseEvent (takeOffer rest s))) ∨
    (∃ o rest i, s.events = o :: rest ∧ offeredEvent o = some i ∧ step s = exec i (takeOffer rest s)) := by
  cases he : s.events with
  | nil => exact .inl ⟨rfl, step_idle he⟩
  | cons o rest =>
    rw [step_offer he]
    cases ho : offeredEvent o with
    | none => exact .inr (.inl ⟨o, rest, rfl, ho, rfl⟩)
    | some i => exact .inr (.inr ⟨o, rest, i, rfl, ho, rfl⟩)

end Sys2Proof.Machine
end

