-- ==== Sys2Proof/Laws/PerInstr.lean ====
section
/-! SUPPORT. Per event: its word has the pattern of its row of the opcode table under the row's mask, and the row is the one of its
mnemonic (R72 to R76, R84). -/

namespace Sys2Proof.Laws.RowPattern

/-- The word of an event lies in the event's own row. -/
def Statement (i : Instr) : Prop := i.row.matches (encode i) = true ∧ i.row.mnemonic = i.mnemonic

theorem mask_step (p : BitVec 11) : (0b00000#5 ++ p) &&& 0xF800#16 = 0x0000#16 := by
  apply BitVec.eq_of_getLsbD_eq
  intro k hk
  rw [BitVec.getLsbD_and, BitVec.getLsbD_append]
  interval_cases k <;> simp

theorem mask_wake (m : BitVec 1) (p : BitVec 11) : (0b1000#4 ++ m ++ p) &&& 0xF000#16 = 0x8000#16 := by
  apply BitVec.eq_of_getLsbD_eq
  intro k hk
  rw [BitVec.getLsbD_and, BitVec.getLsbD_append, BitVec.getLsbD_append]
  interval_cases k <;> simp

theorem mask_txb (c : BitVec 8) : (0b01000000#8 ++ c) &&& 0xFF00#16 = 0x4000#16 := by
  apply BitVec.eq_of_getLsbD_eq
  intro k hk
  rw [BitVec.getLsbD_and, BitVec.getLsbD_append]
  interval_cases k <;> simp

theorem mask_reserved (p : BitVec 13) : (0b111#3 ++ p) &&& 0xE000#16 = 0xE000#16 := by
  apply BitVec.eq_of_getLsbD_eq
  intro k hk
  rw [BitVec.getLsbD_and, BitVec.getLsbD_append]
  interval_cases k <;> simp

theorem step (x : Snapshot) : Statement (.step x) := ⟨beq_iff_eq.mpr (mask_step (packSnapshot x)), rfl⟩
theorem drst : Statement .drst := ⟨by decide, rfl⟩
theorem txb (c : Byte) : Statement (.txb c) := ⟨beq_iff_eq.mpr (mask_txb c), rfl⟩
theorem txn : Statement .txn := ⟨by decide, rfl⟩
theorem wake (mup : Bool) (x : Snapshot) : Statement (.wake mup x) :=
  ⟨beq_iff_eq.mpr (mask_wake (BitVec.ofBool mup) (packSnapshot x)), rfl⟩
theorem tick : Statement .tick := ⟨by decide, rfl⟩
theorem srst : Statement .srst := ⟨by decide, rfl⟩
theorem reserved (payload : BitVec 13) : Statement (.reserved payload) := ⟨beq_iff_eq.mpr (mask_reserved payload), rfl⟩

end Sys2Proof.Laws.RowPattern
end

