-- ==== Sys2Proof/Laws/Transmitter.lean ====
section
/-! SUPPORT. What the transmitter's operations can do, said once: the bits of a loaded frame, and one shift of the register. -/

namespace Sys2Proof.Machine

theorem nine_le_txRegWidth (c : Config) : 9 ≤ c.txRegWidth := Nat.le_add_right 9 _

/-- The nine bits of a frame (R141). -/
theorem frameWord_getLsbD (c : Byte) {k : Nat} (hk : k < 9) :
    (frameWord c).getLsbD k = if k = 0 then false else if k ≤ 7 then c.getLsbD (k - 1) else true := by
  show (1#1 ++ c.extractLsb' 0 7 ++ 0#1 : BitVec (1 + 7 + 1)).getLsbD k = _
  rw [BitVec.getLsbD_append, BitVec.getLsbD_append, BitVec.getLsbD_extractLsb']
  rcases k with _ | _ | _ | _ | _ | _ | _ | _ | _ | k
  all_goals first | omega | simp

/-- The bits of a loaded register (R140). -/
theorem shiftLoad_getLsbD {w : Nat} (c : Byte) {k : Nat} (hk : k < w) :
    (shiftLoad w c).getLsbD k = if k = 0 then false else if k ≤ 7 then c.getLsbD (k - 1) else true := by
  by_cases h9 : k < 9
  · have h1 : (0x1FF#w).getLsbD k = true := by
      simp only [BitVec.getLsbD_ofNat, hk, decide_true, Bool.true_and]
      rcases k with _ | _ | _ | _ | _ | _ | _ | _ | _ | k
      all_goals first | omega | decide
    simp only [shiftLoad, BitVec.getLsbD_or, BitVec.getLsbD_and, BitVec.getLsbD_not, h1, BitVec.getLsbD_setWidth, hk,
      frameWord_getLsbD c h9]
    simp
  · have h1 : (0x1FF#w).getLsbD k = false := by
      simp only [BitVec.getLsbD_ofNat, Bool.and_eq_false_iff]
      right
      exact Nat.testBit_lt_two_pow (Nat.lt_of_lt_of_le (by decide : 0x1FF < 2 ^ 9) (Nat.pow_le_pow_right (by decide) (by omega)))
    have h0 : (frameWord c).getLsbD k = false := BitVec.getLsbD_of_ge _ _ (by omega)
    simp only [shiftLoad, BitVec.getLsbD_or, BitVec.getLsbD_and, BitVec.getLsbD_not, h1, BitVec.getLsbD_setWidth, hk, h0,
      BitVec.getLsbD_allOnes]
    simp
    omega

/-- The nine low bits of a loaded register are the frame. -/
theorem shiftLoad_mod (w : Nat) (hw : 9 ≤ w) (c : Byte) : (shiftLoad w c).toNat % 2 ^ 9 = (frameWord c).toNat := by
  apply Nat.eq_of_testBit_eq
  intro k
  rw [Nat.testBit_mod_two_pow]
  by_cases hk : k < 9
  · have := shiftLoad_getLsbD c (Nat.lt_of_lt_of_le hk hw)
    rw [← frameWord_getLsbD c hk] at this
    simpa [hk, BitVec.getLsbD] using this
  · simp only [hk, decide_false, Bool.false_and]
    exact (Nat.testBit_lt_two_pow (Nat.lt_of_lt_of_le (frameWord c).isLt
      (Nat.pow_le_pow_right (by decide) (by omega)))).symm

theorem shiftLoad_lt (w : Nat) (c : Byte) : (shiftLoad w c).toNat < 2 ^ w := (shiftLoad w c).isLt

/-- The register's lowest bit (R142). -/
theorem txBits_low (s : State) : s.txBits.getLsbD 0 = decide (s.txShift % 2 = 1) := by
  have h9 := nine_le_txRegWidth s.cfg
  have h0 : 0 < s.cfg.txRegWidth := by omega
  simp only [State.txBits, BitVec.getLsbD_ofNat, h0, decide_true, Bool.true_and, Nat.testBit_zero]

/-- One logical shift of the register (R142). -/
theorem txBits_shift {s : State} (h : s.txShift < 2 ^ s.cfg.txRegWidth) : (s.txBits >>> 1).toNat = s.txShift / 2 := by
  simp [State.txBits, Nat.mod_eq_of_lt h, Nat.shiftRight_eq_div_pow]

/-- `next_bit()` with bits left (R142). -/
theorem txAdvance_pos_eq {s : State} (hc : s.txCount ≠ 0) (h : s.txShift < 2 ^ s.cfg.txRegWidth) :
    txAdvance s = { s with txShift := s.txShift / 2, txCount := s.txCount - 1 } := by
  rw [txAdvance_pos s hc, txBits_shift h]

/-- What `next_bit()` returns with bits left (R142, R82). -/
theorem txResult_pos {s : State} (hc : s.txCount ≠ 0) :
    txResult s = if s.txShift % 2 = 1 then 0b11 else 0b10 := by
  have hn : (s.txCount != 0) = true := by simpa using hc
  rw [txResult, txBits_low, hn]
  by_cases hb : s.txShift % 2 = 1
  · simp only [hb, decide_true, if_true]; decide
  · simp only [hb, decide_false, if_false]; decide

/-- What `next_bit()` returns with no bit left (R143, R82). -/
theorem txResult_zero {s : State} (hc : s.txCount = 0) : txResult s = 0b00 := by
  simp [txResult, hc, bitResult]

/-- A shifted register keeps to its width. -/
theorem txAdvance_shiftRange {s : State} (h : s.txShift < 2 ^ s.cfg.txRegWidth) :
    (txAdvance s).txShift < 2 ^ s.cfg.txRegWidth := by
  by_cases hc : s.txCount = 0
  · rw [txAdvance_zero s hc]; exact h
  · rw [txAdvance_pos_eq hc h]
    exact Nat.lt_of_le_of_lt (Nat.div_le_self _ _) h

/-- What is left of a frame after one more bit (R141, R142). -/
theorem frame_left_shift {a f m : Nat} (hm : 0 < m) (hm9 : m ≤ 9) (h : a % 2 ^ m = f >>> (9 - m)) :
    a / 2 % 2 ^ (m - 1) = f >>> (9 - (m - 1)) := by
  obtain ⟨j, rfl⟩ : ∃ j, m = j + 1 := ⟨m - 1, by omega⟩
  have h9 : 9 - j = 9 - (j + 1) + 1 := by omega
  rw [Nat.add_sub_cancel, h9, Nat.shiftRight_succ, ← h, pow_succ, Nat.mul_comm, Nat.mod_mul_right_div_self]

/-- The bit about to go out is the frame's next one (R141, R142). -/
theorem frame_low_bit {a f m : Nat} (hm : 0 < m) (h : a % 2 ^ m = f >>> (9 - m)) :
    decide (a % 2 = 1) = f.testBit (9 - m) := by
  have h2 : a % 2 = f >>> (9 - m) % 2 := by
    rw [← h, Nat.mod_mod_of_dvd a (dvd_pow_self 2 (by omega))]
  rw [h2, ← Nat.testBit_zero, Nat.testBit_shiftRight, Nat.add_zero]

end Sys2Proof.Machine
end

