-- ==== Sys2Proof/Laws/Scheduler.lean ====
section
/-! SUPPORT. What the scheduler's operations can do, said once: the NUL scan, the wake and the tick. -/

namespace Sys2Proof.Machine

/-- The scan's index list is 0, 1, …, 14. -/
theorem bufIdxs_getElem {k : Nat} (hk : k < 15) : bufIdxs[k]'(by simpa [bufIdxs] using hk) = ⟨k, hk⟩ := by
  have : ∀ k : Fin 15, bufIdxs[k.val]'(by simp [bufIdxs]) = k := by decide
  exact this ⟨k, hk⟩

/-- The scan of R164: no NUL before the index found, and a NUL at it unless it is 15. -/
theorem firstNul_spec (s : State) :
    firstNul s ≤ 15 ∧ (∀ i : BufIdx, i.val < firstNul s → s.readBuf i ≠ charNUL) ∧
    (∀ i : BufIdx, i.val = firstNul s → s.readBuf i = charNUL) := by
  have hlen : bufIdxs.length = 15 := rfl
  refine ⟨hlen ▸ List.findIdx_le_length, fun i hi => ?_, fun i hi => ?_⟩
  · have h := List.not_of_lt_findIdx hi
    rw [bufIdxs_getElem i.isLt] at h
    simpa using h
  · have hlt : firstNul s < bufIdxs.length := by rw [← hi, hlen]; exact i.isLt
    have h := List.findIdx_getElem (p := fun i => s.readBuf i == charNUL) (w := hlt)
    have he : (bufIdxs[firstNul s]'hlt) = i := by rw [bufIdxs_getElem (hlen ▸ hlt)]; exact Fin.ext hi.symm
    have h' : (s.readBuf (bufIdxs[firstNul s]'hlt) == charNUL) = true := h
    rw [he] at h'
    simpa using h'

/-- The scan stops at a NUL it meets. -/
theorem firstNul_le {s : State} {i : BufIdx} (h : s.readBuf i = charNUL) : firstNul s ≤ i.val := by
  by_contra hlt
  exact (firstNul_spec s).2.1 i (by omega) h

/-- The length depends on the parameters, `done` and the bytes of the buffer alone. -/
theorem txLength_agree {s t : State} (hc : t.cfg = s.cfg) (hd : t.done = s.done) (hb : ∀ i, t.readBuf i = s.readBuf i) :
    txLength t = txLength s := by
  have hk : firstNul t = firstNul s := by simp only [firstNul, hb]
  simp only [txLength, hk, hc, hd]

theorem txLength_le (s : State) : txLength s ≤ 15 := by
  have := (firstNul_spec s).1
  unfold txLength
  dsimp only
  split_ifs <;> omega

/-- An admitted wake: a sample captured, nothing, the falling edge, or no case (R161, R162, R163). -/
theorem wakeEffect_cases (mup : Bool) (x : Snapshot) (s : State) :
    (mup = true ∧ wakeEffect mup x s = .next (captureSample x s)) ∨
    (mup = false ∧ s.phase = .idle ∧ wakeEffect mup x s = .next s) ∨
    (mup = false ∧ s.phase = .capturing ∧ wakeEffect mup x s = .next (fallingEdge s)) ∨
    (mup = false ∧ s.phase = .transmitting ∧ wakeEffect mup x s = .fault .wakeNoCase) := by
  cases mup with
  | true => exact .inl ⟨rfl, rfl⟩
  | false =>
    refine .inr ?_
    cases h : s.phase with
    | idle => exact .inl ⟨rfl, rfl, by simp [wakeEffect, h]⟩
    | capturing => exact .inr (.inl ⟨rfl, rfl, by simp [wakeEffect, h]⟩)
    | transmitting => exact .inr (.inr ⟨rfl, rfl, by simp [wakeEffect, h]⟩)

/-- The falling edge: `finish()` when there is nothing to send, else the start of a transmission (R163). -/
theorem fallingEdge_cases (s : State) :
    (txLength s = 0 ∧ fallingEdge s = finishTransmit { s with busIrqEn := false }) ∨
    (txLength s ≠ 0 ∧ fallingEdge s = startTransmit (txLength s) { s with busIrqEn := false }) := by
  by_cases h : txLength s = 0
  · exact .inl ⟨h, if_pos h⟩
  · exact .inr ⟨h, if_neg h⟩

/-- An admitted tick: a bit, the next character, the end, or no case (R167). -/
theorem tickEffect_cases (s : State) :
    (s.txCount ≠ 0 ∧ tickEffect s = .next (emitBit s)) ∨
    (∃ next : BufIdx, s.txCount = 0 ∧ next.val = s.ci.toNat + 1 ∧ next.val < s.txLen.toNat ∧
      tickEffect s = .next (loadNext next s)) ∨
    (s.txCount = 0 ∧ s.ci.toNat + 1 = s.txLen.toNat ∧ tickEffect s = .next (lastIdle s)) ∨
    (s.txCount = 0 ∧ s.txLen.toNat < s.ci.toNat + 1 ∧ tickEffect s = .fault .tickNoCase) := by
  by_cases hc : s.txCount = 0
  · refine .inr ?_
    by_cases hlt : s.ci.toNat + 1 < s.txLen.toNat
    · exact .inl ⟨⟨s.ci.toNat + 1, by omega⟩, hc, rfl, hlt, by simp [tickEffect, hc, hlt]⟩
    · by_cases he : s.ci.toNat + 1 = s.txLen.toNat
      · exact .inr (.inl ⟨hc, he, by simp [tickEffect, hc, he]⟩)
      · exact .inr (.inr ⟨hc, by omega, by simp [tickEffect, hc, hlt, he]⟩)
  · exact .inl ⟨hc, if_pos hc⟩

end Sys2Proof.Machine
end

