-- ==== Sys2Proof/Laws/Step.lean ====
section
/-! SUPPORT. The inversion of `exec`: everything an event that answers a next state can have done, with the case's conditions; and runs
of events cut in two. -/

namespace Sys2Proof.Machine

theorem next_inj {a b : State} (h : (Host.Outcome.next a : Host.Outcome State Fault Refusal) = .next b) : a = b := by
  injection h

/-- Everything an event can have done when it answers a next state: it was refused, or it was admitted and had one of the eleven
effects of the rules. -/
theorem exec_next_cases {i : Instr} {s t : State} (he : exec i s = .next t) :
    (admitted s i = false ∧ t = refuseEvent s) ∨
    (admitted s i = true ∧
      ((∃ x, i = .step x ∧ t = decoderStep x s) ∨
       (i = .drst ∧ t = decoderReset s) ∨
       (∃ c, i = .txb c ∧ t = txBegin c s) ∨
       (i = .txn ∧ t = { txAdvance s with result := some (txResult s) }) ∨
       (∃ x, i = .wake true x ∧ t = captureSample x s) ∨
       (∃ x, i = .wake false x ∧ s.phase = .idle ∧ t = s) ∨
       (∃ x, i = .wake false x ∧ s.phase = .capturing ∧ t = fallingEdge s) ∨
       (i = .tick ∧ s.txCount ≠ 0 ∧ t = emitBit s) ∨
       (∃ n : BufIdx, i = .tick ∧ s.txCount = 0 ∧ n.val = s.ci.toNat + 1 ∧ n.val < s.txLen.toNat ∧ t = loadNext n s) ∨
       (i = .tick ∧ s.txCount = 0 ∧ s.ci.toNat + 1 = s.txLen.toNat ∧ t = lastIdle s) ∨
       (i = .srst ∧ t = systemReset s))) := by
  cases ha : admitted s i with
  | false =>
    rw [exec_not_admitted ha] at he
    exact .inl ⟨rfl, (next_inj he).symm⟩
  | true =>
    refine .inr ⟨rfl, ?_⟩
    rw [exec_admitted ha] at he
    cases i with
    | step x => exact .inl ⟨x, rfl, (next_inj he).symm⟩
    | drst => exact .inr (.inl ⟨rfl, (next_inj he).symm⟩)
    | txb c => exact .inr (.inr (.inl ⟨c, rfl, (next_inj he).symm⟩))
    | txn => exact .inr (.inr (.inr (.inl ⟨rfl, (next_inj he).symm⟩)))
    | wake mup x =>
      rcases wakeEffect_cases mup x s with ⟨rfl, e⟩ | ⟨rfl, hp, e⟩ | ⟨rfl, hp, e⟩ | ⟨-, -, e⟩ <;> rw [effectOf, e] at he
      · exact .inr (.inr (.inr (.inr (.inl ⟨x, rfl, (next_inj he).symm⟩))))
      · exact .inr (.inr (.inr (.inr (.inr (.inl ⟨x, rfl, hp, (next_inj he).symm⟩)))))
      · exact .inr (.inr (.inr (.inr (.inr (.inr (.inl ⟨x, rfl, hp, (next_inj he).symm⟩))))))
      · cases he
    | tick =>
      rcases tickEffect_cases s with ⟨hc, e⟩ | ⟨n, hc, hv, hl, e⟩ | ⟨hc, hv, e⟩ | ⟨-, -, e⟩ <;> rw [effectOf, e] at he
      · exact .inr (.inr (.inr (.inr (.inr (.inr (.inr (.inl ⟨rfl, hc, (next_inj he).symm⟩)))))))
      · exact .inr (.inr (.inr (.inr (.inr (.inr (.inr (.inr (.inl ⟨n, rfl, hc, hv, hl, (next_inj he).symm⟩))))))))
      · exact .inr (.inr (.inr (.inr (.inr (.inr (.inr (.inr (.inr (.inl ⟨rfl, hc, hv, (next_inj he).symm⟩)))))))))
      · cases he
    | srst => exact .inr (.inr (.inr (.inr (.inr (.inr (.inr (.inr (.inr (.inr ⟨rfl, (next_inj he).symm⟩)))))))))
    | reserved p => simp [admitted, accepts] at ha

theorem runEvents_cons_next {i : Instr} {is : List Instr} {s t : State} (h : exec i s = .next t) :
    runEvents (i :: is) s = runEvents is t := by rw [runEvents, h]

/-- A run of two lists is the run of the second from where the first ends. -/
theorem runEvents_append {is js : List Instr} {s t : State} (h : runEvents is s = .next t) :
    runEvents (is ++ js) s = runEvents js t := by
  induction is generalizing s with
  | nil => rw [← next_inj h]; rfl
  | cons i is ih =>
    rw [runEvents] at h
    cases he : exec i s with
    | next u =>
      rw [he] at h
      rw [List.cons_append, runEvents_cons_next he, ih h]
    | fault f => rw [he] at h; cases h
    | refused r => rw [he] at h; cases h

end Sys2Proof.Machine
end

