-- ==== Sys2Proof/Tests/Slice0.lean ====
section
/-! SUPPORT. Small tests: well-formedness smoke, words written out from the encodings of R72 to R77, one-step vectors of spec/95, and for
every statement with hypotheses a witness that meets them all. Expected values come from spec/95 or are worked by hand from the rules. -/

namespace Sys2Proof.Tests

open Sys2Proof.Machine

/-! ### Helpers -/

/-- The decoder unit in a decoder state with a decimal-point index, the buffer all `P_BUF_INIT`. -/
def du (d : DState) (dp : BitVec 3) : State := { State.reset with model := .decoderUnit, dstate := d, dp := dp }

/-- The transmitter unit with a register and a count. -/
def tu (sh : Nat) (n : BitVec 4) : State := { State.reset with model := .transmitterUnit, txShift := sh, txCount := n }

/-- " 123456" CR LF, as cells (T3). -/
def counterReading : Memory :=
  [(0, 0x20), (1, 0x31), (2, 0x32), (3, 0x33), (4, 0x34), (5, 0x35), (6, 0x36), (7, 0x0D), (8, 0x0A)]

/-- The whole block capturing, with the reading of T3 finalised. -/
def capturing : State := { State.reset with phase := .capturing, done := true, buf := counterReading }

/-- The whole block sending the reading of T3: character `ci`, register and count as given. -/
def sending (ci : BitVec 4) (sh : Nat) (n : BitVec 4) (txd : Bool) : State :=
  { capturing with
    phase := .transmitting, busIrqEn := false, timerRun := true, ci := ci, txLen := 10, txShift := sh, txCount := n, txd := txd }

/-- A snapshot with a position, a digit and the decimal-point strobe. -/
def snap (pos : BitVec 3) (digit : BitVec 4) (dec : Bool) : Snapshot :=
  { pos := pos, digit := digit, dec := dec, ovf := false, modeA := false, modeB := false }

/-- The state an event leads to, and the given one where it stops. -/
def after (i : Instr) (s : State) : State := match exec i s with
  | .next t => t
  | _ => s

/-! ### Well-formedness -/

theorem test_wf_reserved_is_ill_formed : Instr.WellFormed (.reserved 0) = false := by decide
theorem test_wf_position_7_is_admitted : Instr.WellFormed (.step (snap 7 15 true)) = true := by decide
theorem test_wf_config_refuses_baud_0 : Config.wf { Config.default with baud := 0 } = false := by decide
theorem test_wf_memory_refuses_disorder : ¬ Memory.wf 0 [(3, 1), (2, 1)] := by decide
theorem test_wf_memory_refuses_index_15 : ¬ Memory.wf 0 [(15, 1)] := by decide
theorem test_wf_memory_refuses_unlisted_value : ¬ Memory.wf 0x20 [(3, 0x20)] := by decide
theorem test_no_buffer_index_15 : bufIdx? 15 = none ∧ bufIdx? 14 = some 14 := by decide

/-! ### Decoding, words written out bit by bit from R72 to R77 -/

theorem test_decode_step : decode 0b0000000010100011 = .ok (.step (snap 3 4 true)) := by rfl
theorem test_decode_step_flags :
    decode 0b0000011100000000 = .ok (.step { pos := 0, digit := 0, dec := false, ovf := true, modeA := true, modeB := true }) := by rfl
theorem test_decode_drst : decode 0b0010000000000000 = .ok .drst := by rfl
theorem test_decode_txb : decode 0b0100000010110001 = .ok (.txb 0xB1) := by rfl
theorem test_decode_txn : decode 0b0110000000000000 = .ok .txn := by rfl
theorem test_decode_wake : decode 0b1000100000001110 = .ok (.wake true (snap 6 1 false)) := by rfl
theorem test_decode_wake_low_mode_b :
    decode 0b1000010000000000 = .ok (.wake false { snap 0 0 false with modeB := true }) := by rfl
theorem test_decode_tick : decode 0b1010000000000000 = .ok .tick := by rfl
theorem test_decode_srst : decode 0b1100000000000000 = .ok .srst := by rfl
theorem test_decode_reserved : decode 0b1111111111111111 = .ok (.reserved 0x1FFF) := by rfl
/-- spec/95 2.8. -/
theorem test_decode_refuses_reserved_bits :
    decode 0x0800 = .error (.reservedBits "STEP") ∧ decode 0x2001 = .error (.reservedBits "DRST") ∧
    decode 0x4180 = .error (.reservedBits "TXB") ∧ decode 0x9000 = .error (.reservedBits "WAKE") := ⟨rfl, rfl, rfl, rfl⟩
/-- No two rows of the table match one word: they differ in a bit both masks keep. -/
theorem test_rows_do_not_overlap :
    opTable.Pairwise fun r q => r.pattern &&& (r.mask &&& q.mask) ≠ q.pattern &&& (r.mask &&& q.mask) := by decide

/-! ### Signal decoder (spec/95 2.1) -/

/-- Which lines are active, by list. -/
def activeLines (ls : List Line) (l : Line) : Bool := ls.contains l

theorem test_signal_lowest_strobe_wins : signalDecode (activeLines [.s3, .s5, .b2]) = snap 3 4 false := by decide
theorem test_signal_digit_15 : signalDecode (activeLines [.s6, .b3, .b2, .b1, .b0, .dec]) = snap 6 15 true := by decide

/-! ### Bus decoder (spec/95 2.2, 2.3, V-D13) -/

theorem test_step_records_with_point :
    (after (.step (snap 3 4 true)) (du .digit3 0)).buf = [(4, 0x2E), (5, 0x34)] ∧
    (after (.step (snap 3 4 true)) (du .digit3 0)).dp = 3 := by decide
theorem test_step_finalises_at_highest_index :
    (after (.step { snap 0 0 false with modeB := true }) (du .overflowUnit 6)).buf =
      [(0, 0x20), (8, 0x4D), (9, 0x48), (10, 0x7A), (11, 0x0D), (12, 0x0A)] ∧
    (after (.step { snap 0 0 false with modeB := true }) (du .overflowUnit 6)).done = true := by decide
theorem test_drst_clears : after .drst { du .digit2 3 with done := true, buf := counterReading } = du .init 0 := by decide
theorem test_drst_keeps_buffer :
    (after .drst { du .digit2 3 with
      cfg := { Config.default with resetClearsBuffer := false }, buf := counterReading }).buf = counterReading := by decide

/-! ### Transmitter (spec/95 2.6) -/

theorem test_txb_frame : after (.txb 0x31) (tu 0 0) = tu 0x162 9 := by decide
theorem test_txb_padding :
    (after (.txb 0xB1) { tu 0 0 with cfg := { Config.default with txRegPad := 7 } }).txShift = 0xFF62 := by decide
theorem test_txn_second_bit : after .txn (tu 0x0B1 8) = { tu 0x058 7 with result := some 0b11 } := by decide
theorem test_txn_no_bit : after .txn (tu 0x1FF 0) = { tu 0x1FF 0 with result := some 0b00 } := by decide

/-! ### Scheduler (spec/95 2.7) -/

theorem test_wake_starts_a_pass :
    after (.wake true (snap 6 1 false)) State.reset = { State.reset with phase := .capturing, dstate := .digit6 } := by decide
theorem test_wake_falling_edge : after (.wake false (snap 0 0 false)) capturing = sending 0 0x140 9 true := by decide
theorem test_tick_10_loads_next : after .tick (sending 0 0 0 true) = sending 1 0x162 9 true := by decide
theorem test_tick_100_finishes : after .tick (sending 9 0 0 true) = State.reset := by decide
theorem test_length_without_nul :
    txLength { State.reset with cfg := { Config.default with bufInit := 0x20 } } = 15 := by decide

/-! ### System (spec/95 2.8, 2.9) -/

theorem test_srst_keeps_refused :
    after .srst { sending 2 5 4 false with refused := true } = { State.reset with refused := true } := by decide
theorem test_reserved_word_sets_refused : (after (.reserved 0) State.reset).refused = true := by decide

/-! ### Textual syntax (R83, T1) -/

theorem test_parse_pass :
    (parseLine "PASS 1 2 3 4 5 6 dp=3").map (fun l => l.expand.map encode) =
      some [0x000E, 0x000E, 0x0015, 0x0015, 0x001C, 0x001C, 0x0023, 0x00A3, 0x002A, 0x002A, 0x0031, 0x0031, 0, 0] := by decide
theorem test_text_of_wake :
    eventText (.wake true { snap 6 1 true with modeB := true }) = some "WAKE mup=1 pos=6 dig=1 dec b" := by decide

/-! ### First step after reset -/

theorem test_step_runs_fetched_txb : step (State.reset.withFetchWord 16 0x4031) = .next (tu 0x162 9) := by rfl

/-! ### Witnesses: each meets all hypotheses of the statement it names -/

theorem witness_StepRunsTheOfferedWord :
    ∃ (s : State) (w : EventWord) (rest : List Offer) (i : Instr), s.events = .word w :: rest ∧ decode w = .ok i :=
  ⟨{ State.reset with events := [.word 0x880E] }, 0x880E, [], .wake true (snap 6 1 false), by decide, rfl⟩
theorem witness_StepRunsTheSampledWake :
    ∃ (s : State) (a b : BitVec 8) (rest : List Offer), s.events = .sample a b :: rest :=
  ⟨{ State.reset with events := [.sample 0xFF 0x00] }, 0xFF, 0x00, [], by decide⟩
theorem witness_StepWaitsWhenNothingIsOffered : ∃ s : State, s.events = [] := ⟨State.reset, by decide⟩

/-- The eight ways of R79 a word can be refused, at a word with a single reserved bit each. -/
def badWord (w : EventWord) : Prop :=
  w.extractLsb' 13 3 = 0 ∧ w.extractLsb' 11 2 ≠ 0 ∨ w.extractLsb' 13 3 = 1 ∧ w.extractLsb' 0 13 ≠ 0 ∨
  w.extractLsb' 13 3 = 2 ∧ w.extractLsb' 8 5 ≠ 0 ∨ w.extractLsb' 13 3 = 3 ∧ w.extractLsb' 0 13 ≠ 0 ∨
  w.extractLsb' 13 3 = 4 ∧ w.getLsbD 12 = true ∨ w.extractLsb' 13 3 = 5 ∧ w.extractLsb' 0 13 ≠ 0 ∨
  w.extractLsb' 13 3 = 6 ∧ w.extractLsb' 0 13 ≠ 0 ∨ w.extractLsb' 13 3 = 7

theorem witness_WordWithAReservedBitIsRefused :
    badWord 0x0800 ∧ badWord 0x2001 ∧ badWord 0x4100 ∧ badWord 0x7000 ∧ badWord 0x9000 ∧ badWord 0xA001 ∧ badWord 0xD000 ∧
    badWord 0xE000 ∧ ({ State.reset with events := [.word 0x0800] } : State).events = .word 0x0800 :: [] :=
  ⟨by unfold badWord; decide, by unfold badWord; decide, by unfold badWord; decide, by unfold badWord; decide,
   by unfold badWord; decide, by unfold badWord; decide, by unfold badWord; decide, by unfold badWord; decide, by decide⟩

theorem witness_StepStartsAPass :
    ∃ (s : State) (x : Snapshot), s.model = .decoderUnit ∧ s.dstate = .init ∧ x.pos = 6 :=
  ⟨du .init 3, snap 6 1 true, by decide⟩
theorem witness_StepIgnoresOtherPositionsInInit :
    ∃ (s : State) (x : Snapshot), s.model = .decoderUnit ∧ s.dstate = .init ∧ x.pos ≠ 6 := ⟨du .init 0, snap 7 3 false, by decide⟩

/-- What the statements about `DigitN` assume, at position 1, position 6 and between. -/
theorem witness_StepRecordsADigit :
    ∀ d : DState, d ≠ .init → d ≠ .overflowUnit →
      (du d 0).model = .decoderUnit ∧ (du d 0).dstate.code = d.code ∧ 1 ≤ d.code ∧ d.code ≤ 6 ∧ (snap d.code 9 true).pos = d.code := by
  intro d; cases d <;> decide
theorem witness_DigitIndexAndCharacter :
    (∃ n d : BitVec 3, 1 ≤ n ∧ n ≤ 6 ∧ d ≠ 0 ∧ n.toNat ≤ d.toNat) ∧ (∃ n d : BitVec 3, 1 ≤ n ∧ n ≤ 6 ∧ d = 0) ∧
    (9#4).toNat ≤ 9 ∧ (10#4).toNat = 10 ∧ (11#4).toNat = 11 ∧ (12#4).toNat = 12 ∧ (13#4).toNat = 13 ∧ (14#4).toNat = 14 ∧
    (15#4).toNat = 15 := ⟨⟨3, 3, by decide⟩, ⟨6, 0, by decide⟩, by decide⟩
theorem witness_StepAdvances :
    ∀ d : DState, d ≠ .init → d ≠ .overflowUnit →
      (du d 0).model = .decoderUnit ∧ (du d 0).dstate.code = d.code ∧ 1 ≤ d.code ∧ d.code ≤ 6 ∧
      (snap (d.code - 1) 0 false).pos.toNat + 1 = d.code.toNat := by intro d; cases d <;> decide
/-- Without a decimal point, and with each of the four units. -/
theorem witness_StepFinalisesAPass :
    (du .overflowUnit 0).model = .decoderUnit ∧ (du .overflowUnit 0).dstate = .overflowUnit ∧ (du .overflowUnit 0).dp = 0 ∧
    (du .overflowUnit 6).dstate = .overflowUnit ∧ (du .overflowUnit 6).dp ≠ 0 := by decide
theorem witness_StepRejectsGlitches :
    (du .digit1 0).dstate.code = 1 ∧ (snap 2 0 false).pos.toNat ≠ 1 ∧ (snap 2 0 false).pos.toNat + 1 ≠ 1 ∧
    (du .digit6 0).dstate.code = 6 ∧ (snap 7 0 false).pos.toNat ≠ 6 ∧ (snap 7 0 false).pos.toNat + 1 ≠ 6 ∧
    (du .digit6 0).model = .decoderUnit := by decide
theorem witness_DebounceIsIdempotent :
    ∃ (s : State) (x : Snapshot) (n : BitVec 3), s.model = .decoderUnit ∧ s.dstate.code = n ∧ 1 ≤ n ∧ n ≤ 6 ∧ x.pos = n ∧
      Memory.wf s.cfg.bufInit s.buf := ⟨{ du .digit3 0 with buf := counterReading }, snap 3 4 true, 3, by decide⟩
theorem witness_DrstResetsTheDecoder : ∃ s : State, s.model = .decoderUnit := ⟨du .digit2 3, by decide⟩
theorem witness_CleanPassLaysOutTheReading :
    ∃ (s : State) (p : PassArgs), s.model = .decoderUnit ∧ s.dstate = .init ∧ p.dp ≤ 6 :=
  ⟨du .init 5, { d6 := 1, d5 := 2, d4 := 3, d3 := 4, d2 := 5, d1 := 6, dp := 6, ovf := true, modeA := true, modeB := true }, by decide⟩

/-- The whole-machine statements about a step: a finalisation, a record and a reset, each as one step of an offered word. -/
theorem witness_DecoderStatesDescendOneAtATime :
    ∃ s t : State, step s = .next t ∧ t.dstate ≠ s.dstate ∧ t.dstate ≠ .init :=
  ⟨{ du .digit3 0 with events := [.word 0x0002] }, du .digit2 0, rfl, by decide⟩
theorem witness_DoneFollowsFinalisationAndReset_set :
    ∃ s t : State, step s = .next t ∧ s.done = false ∧ t.done = true :=
  ⟨{ du .overflowUnit 0 with events := [.word 0] }, _, rfl, by decide⟩
theorem witness_DoneFollowsFinalisationAndReset_clear :
    ∃ s t : State, step s = .next t ∧ s.done = true ∧ t.done = false :=
  ⟨{ sending 9 0 0 true with events := [.word 0xA000] }, State.reset, rfl, by decide⟩
theorem witness_OnlyRecordFinaliseAndResetWriteTheBuffer_record :
    ∃ (s t : State) (i : BufIdx), step s = .next t ∧ t.readBuf i ≠ s.readBuf i ∧ i = 7 :=
  ⟨{ du .digit1 3 with events := [.word 0x0031] }, _, 7, rfl, by decide⟩
theorem witness_OnlyRecordFinaliseAndResetWriteTheBuffer_finalise :
    ∃ (s t : State) (i : BufIdx), step s = .next t ∧ t.readBuf i ≠ s.readBuf i ∧ i = 7 :=
  ⟨{ du .overflowUnit 0 with events := [.word 0] }, _, 7, rfl, by decide⟩
theorem witness_OnlyRecordFinaliseAndResetWriteTheBuffer_reset :
    ∃ (s t : State) (i : BufIdx), step s = .next t ∧ t.readBuf i ≠ s.readBuf i ∧ i = 14 :=
  ⟨{ du .digit1 3 with buf := [(14, 1)], events := [.word 0x2000] }, _, 14, rfl, by decide⟩

theorem witness_TxbLoadsTheFrame : ∃ s : State, s.model = .transmitterUnit := ⟨tu 5 3, by decide⟩
theorem witness_TxnYieldsTheLowestBit :
    ∃ s : State, s.model = .transmitterUnit ∧ s.txCount ≠ 0 ∧ s.txShift < 2 ^ s.cfg.txRegWidth := ⟨tu 0x1FF 9, by decide⟩
theorem witness_TxnReportsNoBit : ∃ s : State, s.model = .transmitterUnit ∧ s.txCount = 0 := ⟨tu 0 0, by decide⟩
theorem witness_DrainedFrameIsTheCharacter :
    (tu 0 0).model = .transmitterUnit ∧ (0x7F#8).getLsbD 7 = false ∧ (0x80#8).getLsbD 7 = true := by decide

theorem witness_WakeHighFeedsTheDecoder : ∃ s : State, s.model = .wholeBlock ∧ s.busIrqEn = true := ⟨State.reset, by decide⟩
theorem witness_WakeLowInIdleDoesNothing :
    ∃ s : State, s.model = .wholeBlock ∧ s.busIrqEn = true ∧ s.phase = .idle := ⟨State.reset, by decide⟩
theorem witness_FallingEdgeStartsATransmission :
    ∃ s : State, s.model = .wholeBlock ∧ s.busIrqEn = true ∧ s.phase = .capturing ∧ txLength s ≠ 0 := ⟨capturing, by decide⟩
theorem witness_FallingEdgeWithNothingToSend :
    ∃ s : State, s.model = .wholeBlock ∧ s.busIrqEn = true ∧ s.phase = .capturing ∧ txLength s = 0 :=
  ⟨{ State.reset with phase := .capturing, cfg := { Config.default with stalePolicy := .transmitNothing } }, by decide⟩
theorem witness_TickEmitsTheLowestBit :
    ∃ s : State, s.model = .wholeBlock ∧ s.timerRun = true ∧ s.txCount ≠ 0 ∧ s.txShift < 2 ^ s.cfg.txRegWidth :=
  ⟨sending 0 0x140 9 true, by decide⟩
theorem witness_TickFinishesTheTransmission :
    ∃ s : State, s.model = .wholeBlock ∧ s.timerRun = true ∧ s.txCount = 0 ∧ s.ci.toNat + 1 = s.txLen.toNat :=
  ⟨sending 9 0 0 true, by decide⟩
theorem witness_EventNotAdmittedIsRefused :
    State.reset.model ≠ .decoderUnit ∧ State.reset.model ≠ .transmitterUnit ∧ (du .init 0).model ≠ .wholeBlock ∧
    (sending 0 0x140 9 true).busIrqEn = false ∧ State.reset.timerRun = false := by decide

/-! The invariants hold in a capturing state and in a sending one. -/

theorem capturing_inv : BlockInv capturing := by constructor <;> decide
theorem sending_inv : BlockInv (sending 0 0x140 9 true) := by constructor <;> decide
theorem sending_between_inv : BlockInv (sending 8 0 0 true) := by constructor <;> decide

/-- One launch for each model; in the units a field of another sub-unit is not at its reset value. -/
theorem witness_CleanLaunchMeetsTheInvariants :
    (cleanLaunch State.reset ∧ State.reset.model = .wholeBlock) ∧
    (cleanLaunch (tu 5 3 |> fun s => { s with model := .decoderUnit }) ∧ (tu 5 3).txCount ≠ 0) ∧
    (cleanLaunch { du .digit2 3 with model := .transmitterUnit } ∧ (du .digit2 3).dstate ≠ .init) ∧
    ¬ cleanLaunch (du .digit2 3) := by
  simp [cleanLaunch, decoderAtReset, transmitterAtReset, schedulerAtReset, State.reset, tu, du]
theorem witness_FinalisedReadingHasAtMost14Characters : ∃ s : State, BlockInv s ∧ s.done = true :=
  ⟨capturing, capturing_inv, by decide⟩
theorem witness_TickLoadsTheNextCharacter :
    ∃ (s : State) (i : BufIdx), s.model = .wholeBlock ∧ s.timerRun = true ∧ s.txCount = 0 ∧ s.ci.toNat + 1 < s.txLen.toNat ∧
      i.val = s.ci.toNat + 1 ∧ BlockInv s :=
  ⟨sending 8 0 0 true, 9, by decide, by decide, by decide, by decide, by decide, sending_between_inv⟩
theorem witness_ExactlyOneOfWakeAndTickIsAdmitted_wake :
    ∃ s : State, BlockInv s ∧ s.model = .wholeBlock ∧ s.refused = false ∧ s.phase ≠ .transmitting :=
  ⟨capturing, capturing_inv, by decide⟩
theorem witness_ExactlyOneOfWakeAndTickIsAdmitted_tick :
    ∃ s : State, BlockInv s ∧ s.model = .wholeBlock ∧ s.refused = false ∧ s.phase = .transmitting :=
  ⟨sending 0 0x140 9 true, sending_inv, by decide⟩
theorem witness_EveryStepKeepsTheInvariants : ∃ s t : State, BlockInv s ∧ step s = .next t ∧ t ≠ s := by
  refine ⟨{ capturing with events := [.word 0x8000] }, sending 0 0x140 9 true, ?_, rfl, by decide⟩
  constructor <;> decide
theorem witness_EveryStepHasANextState : ∃ s : State, BlockInv s ∧ s.phase = .transmitting :=
  ⟨sending 0 0x140 9 true, sending_inv, by decide⟩
theorem witness_RefusedIsStickyAndChangesNothingElse_set :
    ∃ s t : State, step s = .next t ∧ s.refused = false ∧ t.refused = true :=
  ⟨{ State.reset with events := [.word 0xA000] }, _, rfl, by decide⟩
theorem witness_RefusedIsStickyAndChangesNothingElse_kept :
    ∃ s t : State, step s = .next t ∧ s.refused = true :=
  ⟨{ State.reset with refused := true, events := [.word 0xC000] }, _, rfl, by decide⟩
theorem witness_BufferIsFrozenWhileTransmitting :
    ∃ s t : State, BlockInv s ∧ s.phase = .transmitting ∧ step s = .next t ∧ t.phase = .transmitting := by
  refine ⟨{ sending 8 0 0 true with events := [.word 0xA000] }, sending 9 0x100 9 true, ?_, by decide, rfl, by decide⟩
  constructor <;> decide
theorem witness_UnitEventsStayInTheirUnit_step :
    ∃ (s t : State) (x : Snapshot), exec (.step x) s = .next t ∧ t.dstate ≠ s.dstate :=
  ⟨du .init 0, du .digit6 0, snap 6 1 false, rfl, by decide⟩
theorem witness_UnitEventsStayInTheirUnit_drst : ∃ s t : State, exec .drst s = .next t ∧ t.dstate ≠ s.dstate :=
  ⟨du .digit2 3, du .init 0, rfl, by decide⟩
theorem witness_UnitEventsStayInTheirUnit_txb : ∃ (s t : State) (c : Byte), exec (.txb c) s = .next t ∧ t.txCount = 9 :=
  ⟨tu 0 0, tu 0x162 9, 0x31, rfl, by decide⟩
theorem witness_UnitEventsStayInTheirUnit_txn : ∃ s t : State, exec .txn s = .next t ∧ t.txCount = 8 :=
  ⟨tu 0x162 9, _, rfl, by decide⟩
theorem witness_WakeAndTickFrames_wake :
    ∃ (s t : State) (x : Snapshot), exec (.wake true x) s = .next t ∧ t.phase = .capturing :=
  ⟨State.reset, _, snap 6 1 false, rfl, by decide⟩
theorem witness_WakeAndTickFrames_tick_bit : ∃ s t : State, exec .tick s = .next t ∧ s.txCount ≠ 0 :=
  ⟨sending 0 0x140 9 true, sending 0 0x0A0 8 false, rfl, by decide⟩
theorem witness_WakeAndTickFrames_tick_next :
    ∃ s t : State, exec .tick s = .next t ∧ s.txCount = 0 ∧ s.ci.toNat + 1 < s.txLen.toNat :=
  ⟨sending 0 0 0 true, sending 1 0x162 9 true, rfl, by decide⟩
theorem witness_EachTickPaysOneTickOwed :
    ∃ s : State, BlockInv s ∧ s.model = .wholeBlock ∧ s.phase = .transmitting := ⟨sending 8 0 0 true, sending_between_inv, by decide⟩
theorem witness_TransmissionTakesTenTicksPerCharacter :
    ∃ s : State, BlockInv s ∧ s.model = .wholeBlock ∧ s.phase = .capturing ∧ txLength s ≠ 0 ∧ s.refused = false :=
  ⟨capturing, capturing_inv, by decide⟩
/-- The first bit of the first character, and the idle period of the last (the NUL, at index 9). -/
theorem witness_LineCarriesTheReadingBitByBit :
    BlockInv capturing ∧ capturing.model = .wholeBlock ∧ capturing.phase = .capturing ∧
    (0 : BufIdx).val < txLength capturing ∧ (9 : BufIdx).val < txLength capturing :=
  ⟨capturing_inv, by decide, by decide, by decide, by decide⟩

end Sys2Proof.Tests
end

section
/-! PROOFS. Who may write the reading buffer (R52), and which sub-unit's fields an event of a unit model may write (R81). -/

namespace Sys2Proof.Machine

/-! ### Bytes of the buffer -/

/-- R52 with the index ranges of R51: why byte `i` may differ between `s` and the next state `t`. -/
def BufferWriteAllowed (s t : State) (i : BufIdx) : Prop :=
  (1 ≤ s.dstate.code ∧ s.dstate.code ≤ 6 ∧ t.dstate = s.dstate ∧ 1 ≤ i.val ∧ i.val ≤ 7) ∨
  (s.dstate = .overflowUnit ∧ t.done = true ∧ (i.val = 0 ∨ 7 ≤ i.val ∧ i.val ≤ 13)) ∨
  (t.dstate = .init ∧ t.dp = 0 ∧ t.done = false ∧ t.readBuf i = s.cfg.bufInit)

theorem readBuf_congr {s t : State} (hcfg : t.cfg = s.cfg) (hbuf : t.buf = s.buf) (i : BufIdx) :
    t.readBuf i = s.readBuf i := by
  rw [State.readBuf, State.readBuf, hcfg, hbuf]

theorem readBuf_of_buf_nil {s : State} (h : s.buf = []) (i : BufIdx) : s.readBuf i = s.cfg.bufInit := by
  rw [State.readBuf, h, Memory.get_nil]

/-- A byte a record changes is the digit's or the point's, so it lies in 1..7 (R113, R119). -/
theorem recordDigit_changed_range {n : BitVec 3} {x : Snapshot} {s : State} {i : BufIdx} (h1 : 1 ≤ n) (h6 : n ≤ 6)
    (hne : (recordDigit n x s).readBuf i ≠ s.readBuf i) : 1 ≤ i.val ∧ i.val ≤ 7 := by
  have hdigit := digitIdx_range (d := recordedDp n x.dec s.dp) h1 h6
  have hdot := dotIdx_range h1 h6
  by_contra hout
  have hsame := recordDigit_get_other (n := n) (x := x) (s := s) (a := i.val) (by omega) (by omega)
  exact hne hsame

/-- A byte a finalisation changes is one it stores, so it is 0 or lies in 7..13 (R115, R51). -/
theorem finalisePass_changed_range {x : Snapshot} {s : State} {i : BufIdx}
    (hne : (finalisePass x s).readBuf i ≠ s.readBuf i) : i.val = 0 ∨ 7 ≤ i.val ∧ i.val ≤ 13 := by
  by_contra hout
  refine hne (Memory.get_setMany_other _ _ _ fun w hw heq => hout ?_)
  rw [heq]
  exact finalWrites_range x s.dp w hw

/-- A snapshot writes a byte only by a record or a finalisation (R52). -/
theorem decoderStep_bufferWriteAllowed {x : Snapshot} {s : State} {i : BufIdx}
    (hne : (decoderStep x s).readBuf i ≠ s.readBuf i) : BufferWriteAllowed s (decoderStep x s) i := by
  rcases decoderStep_cases x s with ⟨-, -, e⟩ | ⟨n, hn, h1, h6, -, e⟩ | ⟨n, -, -, -, -, e⟩ | ⟨ho, e⟩ | e <;> rw [e] at hne ⊢
  · exact absurd (readBuf_congr rfl rfl i) hne
  · exact .inl ⟨hn ▸ h1, hn ▸ h6, rfl, recordDigit_changed_range h1 h6 hne⟩
  · exact absurd (readBuf_congr rfl rfl i) hne
  · exact .inr (.inl ⟨ho, rfl, finalisePass_changed_range hne⟩)
  · exact absurd rfl hne

/-- A reset that changes a byte has cleared the buffer, so the byte is `P_BUF_INIT` (R117, R165, R221). -/
theorem reset_bufferWriteAllowed {s t : State} {i : BufIdx} (hcfg : t.cfg = s.cfg) (hstate : t.dstate = .init) (hdp : t.dp = 0)
    (hdone : t.done = false) (hbuf : t.buf = [] ∨ t.buf = s.buf) (hne : t.readBuf i ≠ s.readBuf i) :
    BufferWriteAllowed s t i := by
  rcases hbuf with hnil | hsame
  · exact .inr (.inr ⟨hstate, hdp, hdone, by rw [readBuf_of_buf_nil hnil, hcfg]⟩)
  · exact absurd (readBuf_congr hcfg hsame i) hne

theorem decoderReset_buf_cases (s : State) : (decoderReset s).buf = [] ∨ (decoderReset s).buf = s.buf := by
  rw [decoderReset_buf]
  split
  · exact .inl rfl
  · exact .inr rfl

/-- The falling edge writes the buffer only where it ends with `finish()` (R163, R165). -/
theorem fallingEdge_bufferWriteAllowed {s : State} {i : BufIdx} (hne : (fallingEdge s).readBuf i ≠ s.readBuf i) :
    BufferWriteAllowed s (fallingEdge s) i := by
  rcases fallingEdge_cases s with ⟨-, e⟩ | ⟨-, e⟩ <;> rw [e] at hne ⊢
  · exact reset_bufferWriteAllowed rfl rfl rfl rfl (decoderReset_buf_cases s) hne
  · exact absurd (readBuf_congr rfl rfl i) hne

/-- Every event that answers a next state writes the buffer only as R52 allows. -/
theorem exec_bufferWriteAllowed {e : Instr} {s t : State} {i : BufIdx} (he : exec e s = .next t)
    (hne : t.readBuf i ≠ s.readBuf i) : BufferWriteAllowed s t i := by
  rcases exec_next_cases he with ⟨-, rfl⟩ | ⟨-, ⟨x, -, rfl⟩ | ⟨-, rfl⟩ | ⟨c, -, rfl⟩ | ⟨-, rfl⟩ | ⟨x, -, rfl⟩ | ⟨x, -, -, rfl⟩ |
    ⟨x, -, -, rfl⟩ | ⟨-, -, rfl⟩ | ⟨n, -, -, -, -, rfl⟩ | ⟨-, -, -, rfl⟩ | ⟨-, rfl⟩⟩
  · exact absurd (readBuf_congr rfl rfl i) hne
  · exact decoderStep_bufferWriteAllowed hne
  · exact reset_bufferWriteAllowed rfl rfl rfl rfl (decoderReset_buf_cases s) hne
  · exact absurd (readBuf_congr rfl rfl i) hne
  · exact absurd (readBuf_congr (txAdvance_cfg s) (txAdvance_buf s) i) hne
  · exact decoderStep_bufferWriteAllowed (s := { s with phase := .capturing }) hne
  · exact absurd rfl hne
  · exact fallingEdge_bufferWriteAllowed hne
  · exact absurd (readBuf_congr (emitBit_cfg s) (emitBit_buf s) i) hne
  · exact absurd (readBuf_congr rfl rfl i) hne
  · exact reset_bufferWriteAllowed rfl rfl rfl rfl (decoderReset_buf_cases s) hne
  · exact reset_bufferWriteAllowed rfl rfl rfl rfl (.inl rfl) hne

/-- Settles O24: a wait and a refusal write no byte, and `takeOffer` changes no field that `BufferWriteAllowed` reads. -/
theorem onlyRecordFinaliseAndResetWriteTheBuffer : Obligations.OnlyRecordFinaliseAndResetWriteTheBuffer := by
  intro s t i hstep hne
  rcases step_cases s with ⟨-, e⟩ | ⟨o, rest, -, -, e⟩ | ⟨o, rest, ev, -, -, e⟩ <;> rw [e] at hstep
  · exact absurd (congrArg (State.readBuf · i) (next_inj hstep)).symm hne
  · obtain rfl := next_inj hstep
    exact absurd (readBuf_congr rfl rfl i) hne
  · exact exec_bufferWriteAllowed (s := takeOffer rest s) hstep hne

/-! ### Frames of the unit models' events -/

/-- An event whose effect is a next state leads to that state, or is refused (R192). -/
theorem exec_next_of_effect {i : Instr} {s t u : State} (hu : effectOf i s = .next u) (he : exec i s = .next t) :
    t = refuseEvent s ∨ t = u := by
  cases ha : admitted s i with
  | false => exact .inl (next_inj ((exec_not_admitted ha).symm.trans he)).symm
  | true => exact .inr (next_inj (hu.symm.trans ((exec_admitted ha).symm.trans he))).symm

theorem sameDecoder_of_eq {s t : State} (hcfg : t.cfg = s.cfg) (hstate : t.dstate = s.dstate) (hdp : t.dp = s.dp)
    (hdone : t.done = s.done) (hbuf : t.buf = s.buf) : sameDecoder s t :=
  ⟨hstate, hdp, hdone, readBuf_congr hcfg hbuf⟩

/-- STEP and DRST write the decoder alone (R110, R117). -/
theorem decoderEvent_frame {s t : State} {x : Snapshot} (h : exec (.step x) s = .next t ∨ exec .drst s = .next t) :
    sameTransmitter s t ∧ sameScheduler s t ∧ t.events = s.events ∧ t.result = s.result := by
  have ht : t = refuseEvent s ∨ t = decoderStep x s ∨ t = decoderReset s := by
    rcases h with h | h
    · exact (exec_next_of_effect rfl h).imp_right .inl
    · exact (exec_next_of_effect rfl h).imp_right .inr
  rcases ht with rfl | rfl | rfl <;> simp [sameTransmitter, sameScheduler]

theorem exec_txb_next {s t : State} {c : Byte} (h : exec (.txb c) s = .next t) : t = refuseEvent s ∨ t = txBegin c s :=
  exec_next_of_effect rfl h

/-- TXB and TXN write the transmitter, and the result port, alone (R140, R142, R143; log 7). -/
theorem transmitterEvent_frame {s t : State} {c : Byte} (h : exec (.txb c) s = .next t ∨ exec .txn s = .next t) :
    sameDecoder s t ∧ sameScheduler s t ∧ t.events = s.events := by
  have ht : t = refuseEvent s ∨ t = txBegin c s ∨ t = { txAdvance s with result := some (txResult s) } := by
    rcases h with h | h
    · exact (exec_txb_next h).imp_right .inl
    · exact (exec_next_of_effect rfl h).imp_right .inr
  refine ⟨?_, ?_⟩
  · rcases ht with rfl | rfl | rfl <;> apply sameDecoder_of_eq <;> simp
  · rcases ht with rfl | rfl | rfl <;> simp [sameScheduler]

/-- Settles O46: each of the four events is refused or has the one effect of its rule, and either keeps within its unit. -/
theorem unitEventsStayInTheirUnit : Obligations.UnitEventsStayInTheirUnit := by
  intro s t x c
  refine ⟨decoderEvent_frame, transmitterEvent_frame, fun h => ?_⟩
  rcases exec_txb_next h with rfl | rfl
  · rfl
  · rfl

end Sys2Proof.Machine
end

section
/-! PROOFS. The signal decoder: the position is the lowest active strobe (R101), the digit has the weights 8, 4, 2, 1 (R102). -/

namespace Sys2Proof.Machine

/-- R101: strobe `k` (by number less one) is active and no lower-numbered one is. -/
def LowestActive (act : Line → Bool) (k : Fin 6) : Prop :=
  act (strobeLine k) = true ∧ ∀ j : Fin 6, j < k → act (strobeLine j) = false

theorem LowestActive.unique {act : Line → Bool} {k l : Fin 6} (hk : LowestActive act k) (hl : LowestActive act l) : k = l := by
  obtain ⟨hkAct, hkLow⟩ := hk
  obtain ⟨hlAct, hlLow⟩ := hl
  rcases lt_trichotomy k l with h | h | h
  · exact absurd hkAct (by simp [hlLow k h])
  · exact h
  · exact absurd hlAct (by simp [hkLow l h])

/-- R101, one case per way through the priority chain: no strobe is active and the position is 0, or it is the lowest active one's number. -/
theorem strobePos_cases (act : Line → Bool) :
    (strobePos act = 0 ∧ ∀ k : Fin 6, act (strobeLine k) = false) ∨
    ∃ k : Fin 6, (strobePos act).toNat = k.val + 1 ∧ LowestActive act k := by
  unfold strobePos
  split_ifs with h1 h2 h3 h4 h5 h6
  · exact .inr ⟨0, rfl, h1, by simp⟩
  · exact .inr ⟨1, rfl, h2, by simp [strobeLine, *]⟩
  · exact .inr ⟨2, rfl, h3, by simp [Fin.forall_fin_succ, strobeLine, *]⟩
  · exact .inr ⟨3, rfl, h4, by simp [Fin.forall_fin_succ, strobeLine, *]⟩
  · exact .inr ⟨4, rfl, h5, by simp [Fin.forall_fin_succ, strobeLine, *]⟩
  · exact .inr ⟨5, rfl, h6, by simp [Fin.forall_fin_succ, strobeLine, *]⟩
  · exact .inl ⟨rfl, by simp [Fin.forall_fin_succ, strobeLine, *]⟩

theorem strobePos_le_six (act : Line → Bool) : (strobePos act).toNat ≤ 6 := by
  rcases strobePos_cases act with ⟨hpos, -⟩ | ⟨k, hpos, -⟩
  · simp [hpos]
  · omega

theorem strobePos_eq_zero_iff (act : Line → Bool) : strobePos act = 0 ↔ ∀ k : Fin 6, act (strobeLine k) = false := by
  rcases strobePos_cases act with ⟨hpos, hnone⟩ | ⟨k, hpos, hact, -⟩
  · exact iff_of_true hpos hnone
  · exact iff_of_false (fun h => by simp [h] at hpos) (fun h => by simp [h k] at hact)

/-- The lowest active strobe is unique (`LowestActive.unique`), so the position names no other. -/
theorem strobePos_eq_succ_iff (act : Line → Bool) (k : Fin 6) : (strobePos act).toNat = k.val + 1 ↔ LowestActive act k := by
  rcases strobePos_cases act with ⟨hpos, hnone⟩ | ⟨l, hpos, hlow⟩
  · exact iff_of_false (by simp [hpos]) (fun ⟨hact, _⟩ => by simp [hnone k] at hact)
  · constructor
    · intro h
      obtain rfl : l = k := by omega
      exact hlow
    · intro h
      rw [h.unique hlow, hpos]

/-- Settles O10: the three clauses of R101, each read off the priority chain's cases. -/
theorem lowestActiveStrobeWins : Obligations.LowestActiveStrobeWins := fun act =>
  ⟨strobePos_le_six act, strobePos_eq_zero_iff act, strobePos_eq_succ_iff act⟩

/-- R102: a line appended below doubles the weight of those above it. -/
theorem bcdDigit_toNat (act : Line → Bool) :
    (bcdDigit act).toNat = 8 * (act .b3).toNat + 4 * (act .b2).toNat + 2 * (act .b1).toNat + (act .b0).toNat := by
  have hconcat : bcdDigit act = (((BitVec.ofBool (act .b3)).concat (act .b2)).concat (act .b1)).concat (act .b0) := rfl
  rw [hconcat, BitVec.toNat_concat, BitVec.toNat_concat, BitVec.toNat_concat, BitVec.toNat_ofBool]
  omega

/-- Settles O11: the weights are `bcdDigit_toNat`, and each flag is its line (R103). -/
theorem snapshotCarriesDigitAndFlags : Obligations.SnapshotCarriesDigitAndFlags := fun act =>
  ⟨bcdDigit_toNat act, rfl, rfl, rfl, rfl⟩

end Sys2Proof.Machine
end

section
/-! PROOFS. The bus decoder on one snapshot (R111 to R116): which case of R110 applies in which state, the bytes a finalisation stores
(R115), and the moves of the decoder's state in any step (R128). -/

namespace Sys2Proof.Machine

/-! ### STEP in the decoder unit -/

/-- The decoder unit accepts STEP in every state (R81), so STEP is the decoder's step. -/
theorem exec_step_decoderUnit {s : State} (h : s.model = .decoderUnit) (x : Snapshot) :
    exec (.step x) s = .next (decoderStep x s) :=
  exec_admitted (by simp [admitted, accepts, h])

theorem digitStep_advance {n : BitVec 3} {x : Snapshot} (s : State) (h : x.pos.toNat + 1 = n.toNat) :
    digitStep n x s = advanceDigit n s := by
  have hne : x.pos ≠ n := by bv_omega
  have hbelow : x.pos = n - 1 := by bv_omega
  rw [digitStep, if_neg hne, if_pos hbelow]

theorem digitStep_ignore {n : BitVec 3} {x : Snapshot} (s : State) (h1 : 1 ≤ n) (hne : x.pos.toNat ≠ n.toNat)
    (hbelow : x.pos.toNat + 1 ≠ n.toNat) : digitStep n x s = s := by
  rw [digitStep, if_neg (by bv_omega), if_neg (by bv_omega)]

/-- R114: the state after `DigitN` is the one whose code is N − 1, `OverflowUnit` for N = 1 among them. -/
theorem afterDigit_code_succ {n : BitVec 3} (h1 : 1 ≤ n) : (afterDigit n).code.toNat + 1 = n.toNat := by
  revert n; decide

/-- Settles O12: the decoder's step in `Init` at position 6 is `startPass`. -/
theorem stepStartsAPass : Obligations.StepStartsAPass := by
  intro s x hmodel hinit hpos
  rw [exec_step_decoderUnit hmodel, decoderStep_init hinit, if_pos hpos]
  rfl

/-- Settles O13: the decoder's step in `Init` at any other position is the identity. -/
theorem stepIgnoresOtherPositionsInInit : Obligations.StepIgnoresOtherPositionsInInit := by
  intro s x hmodel hinit hpos
  rw [exec_step_decoderUnit hmodel, decoderStep_init hinit, if_neg hpos]

/-- Settles O16: the digit step advances, to the state whose code is one less. -/
theorem stepAdvances : Obligations.StepAdvances := by
  intro s x n hmodel hcode h1 h6 hpos
  refine ⟨afterDigit n, afterDigit_code_succ h1, ?_⟩
  rw [exec_step_decoderUnit hmodel, decoderStep_digit hcode h1 h6, digitStep_advance s hpos]
  rfl

/-- Settles O18: the digit step ignores a position that is neither N nor N − 1. -/
theorem stepRejectsGlitches : Obligations.StepRejectsGlitches := by
  intro s x n hmodel hcode h1 h6 hne hbelow
  rw [exec_step_decoderUnit hmodel, decoderStep_digit hcode h1 h6, digitStep_ignore s h1 hne hbelow]

/-! ### The bytes of a finalisation -/

/-- Bytes stored at distinct indices, one each, read back in the order of the indices. -/
theorem Memory.get_setMany_zip (d : Byte) {is : List BufIdx} {vs : List Byte} (hdistinct : is.Nodup)
    (hfit : vs.length ≤ is.length) (m : Memory) :
    (is.take vs.length).map (fun i => Memory.get d i.val (Memory.setMany d (is.zip vs) m)) = vs := by
  induction vs generalizing is m with
  | nil => simp
  | cons v vs ih =>
    cases is with
    | nil => simp at hfit
    | cons i is =>
      obtain ⟨hnotIn, hrest⟩ := List.nodup_cons.mp hdistinct
      have hhead : Memory.get d i.val (Memory.setMany d (is.zip vs) (Memory.set d i v m)) = v := by
        have hother : ∀ w ∈ is.zip vs, i.val ≠ w.1.val := fun w hw heq =>
          hnotIn ((Fin.ext heq : i = w.1) ▸ (List.of_mem_zip hw).1)
        rw [Memory.get_setMany_other d _ _ hother, Memory.get_set_same]
      have htail := ih hrest (Nat.le_of_succ_le_succ hfit) (Memory.set d i v m)
      simp only [List.length_cons, List.take_succ_cons, List.map_cons, List.zip_cons_cons, Memory.setMany, hhead, htail]

/-- `k0` of R115: the index of the first byte of the tail. -/
def tailStart (hasDp : Bool) : Nat := if hasDp then 8 else 7

theorem tailStart_range (hasDp : Bool) : 7 ≤ tailStart hasDp ∧ tailStart hasDp ≤ 8 := by
  cases hasDp <;> decide

theorem tailIdxs_eq_take (hasDp : Bool) : tailIdxs hasDp = (bufIdxs.drop (tailStart hasDp)).take 6 := by
  cases hasDp <;> rfl

theorem tailIdxs_nodup (hasDp : Bool) : (tailIdxs hasDp).Nodup := by
  cases hasDp <;> decide

theorem tailIdxs_length (hasDp : Bool) : (tailIdxs hasDp).length = 6 := by
  cases hasDp <;> rfl

theorem tailIdxs_getElem_val (hasDp : Bool) {j : Nat} (hj : j < (tailIdxs hasDp).length) :
    ((tailIdxs hasDp)[j]).val = tailStart hasDp + j := by
  have hlt : tailStart hasDp + j < 15 := by
    have hstart := tailStart_range hasDp
    rw [tailIdxs_length] at hj
    omega
  simp only [tailIdxs_eq_take, List.getElem_take, List.getElem_drop, bufIdxs_getElem hlt]

/-- The writes of a tail of bytes `vs` name `vs.length` indices from `k0` on. -/
theorem tailWrites_range {hasDp : Bool} {vs : List Byte} {w : BufIdx × Byte} (hw : w ∈ (tailIdxs hasDp).zip vs) :
    tailStart hasDp ≤ w.1.val ∧ w.1.val < tailStart hasDp + vs.length := by
  obtain ⟨j, hj, rfl⟩ := List.mem_iff_getElem.mp hw
  have hlen := List.length_zip (l₁ := tailIdxs hasDp) (l₂ := vs)
  rw [List.getElem_zip, tailIdxs_getElem_val]
  omega

/-- `t` of R115 for a snapshot and a recorded decimal-point index. -/
def finalTail (x : Snapshot) (dp : BitVec 3) : List Byte := readingTail (unitOf x.modeA x.modeB (dp != 0))

theorem finalWrites_eq (x : Snapshot) (dp : BitVec 3) :
    finalWrites x dp = (0, indicator x.ovf) :: (tailIdxs (dp != 0)).zip (finalTail x dp) := rfl

/-- Index 0 holds the indicator after a finalisation: no write of the tail names it (R115). -/
theorem finalisePass_readBuf_zero (x : Snapshot) (s : State) : (finalisePass x s).readBuf 0 = indicator x.ovf := by
  rw [finalisePass_readBuf, finalWrites_eq, Memory.setMany, Memory.get_setMany_other, Memory.get_set_same]
  intro w hw
  have hstart := tailStart_range (s.dp != 0)
  have hrange := tailWrites_range hw
  exact Nat.ne_of_lt (by omega)

/-- The tail stands from `k0` on after a finalisation (R115). -/
theorem finalisePass_bytesFrom (x : Snapshot) (s : State) :
    bytesFrom (finalisePass x s) (tailStart (s.dp != 0)) (finalTail x s.dp).length = finalTail x s.dp := by
  have hfit : (finalTail x s.dp).length ≤ (tailIdxs (s.dp != 0)).length := readingTail_fits _ _ _
  have hidxs : (bufIdxs.drop (tailStart (s.dp != 0))).take (finalTail x s.dp).length =
      (tailIdxs (s.dp != 0)).take (finalTail x s.dp).length := by
    rw [tailIdxs_eq_take, List.take_take, Nat.min_eq_left (tailIdxs_length _ ▸ hfit)]
  rw [bytesFrom, hidxs]
  exact Memory.get_setMany_zip s.cfg.bufInit (tailIdxs_nodup _) hfit _

/-- A finalisation leaves every byte outside index 0 and the tail (R115). -/
theorem finalisePass_readBuf_other {x : Snapshot} {s : State} {i : BufIdx} (h0 : i.val ≠ 0)
    (hout : i.val < tailStart (s.dp != 0) ∨ tailStart (s.dp != 0) + (finalTail x s.dp).length ≤ i.val) :
    (finalisePass x s).readBuf i = s.readBuf i := by
  refine Memory.get_setMany_other _ _ _ fun w hw => ?_
  rcases List.mem_cons.mp hw with rfl | htail
  · exact h0
  · have hrange := tailWrites_range (vs := finalTail x s.dp) htail
    omega

/-- R120 and R121 by the levels of the two mode lines. -/
theorem unitSuffix_unitOf (a b : Bool) (dp : BitVec 3) :
    unitSuffix (unitOf a b (dp != 0)) =
      if dp = 0 then []
      else if a = true ∧ b = false then [0x75, 0x73]
      else if a = false ∧ b = false then [0x6D, 0x73]
      else if a = true ∧ b = true then [0x6B, 0x48, 0x7A]
      else [0x4D, 0x48, 0x7A] := by
  by_cases hdp : dp = 0
  · simp [hdp, unitOf, unitSuffix]
  · have hhas : (dp != 0) = true := by simpa using hdp
    rw [hhas, if_neg hdp]
    cases a <;> cases b <;> rfl

theorem tailStart_eq (dp : BitVec 3) : tailStart (dp != 0) = if dp = 0 then 7 else 8 := by
  by_cases hdp : dp = 0 <;> simp [tailStart, hdp]

/-- Settles O17: the decoder's step in `OverflowUnit` is `finalisePass`, whose bytes are the indicator, the tail, and what stood there. -/
theorem stepFinalisesAPass : Obligations.StepFinalisesAPass := by
  intro s x hmodel hstate k0 suffix tail
  have hk0 : k0 = tailStart (s.dp != 0) := (tailStart_eq s.dp).symm
  have htail : tail = finalTail x s.dp :=
    congrArg (· ++ [charCR, charLF, charNUL]) (unitSuffix_unitOf x.modeA x.modeB s.dp).symm
  rw [hk0, htail]
  refine ⟨finalisePass x s, ?_, finalisePass_readBuf_zero x s, finalisePass_bytesFrom x s,
    fun i h0 hout => finalisePass_readBuf_other h0 hout, rfl⟩
  rw [exec_step_decoderUnit hmodel, decoderStep_overflow hstate]

/-! ### The moves of the decoder's state -/

/-- R128: the decoder stays, goes to `Init`, leaves `Init` for `Digit6`, or goes down by one. -/
def DState.Moves (d e : DState) : Prop :=
  e = d ∨ e = .init ∨ (d = .init ∧ e = .digit6) ∨ (d ≠ .init ∧ e.code.toNat + 1 = d.code.toNat)

theorem DState.Moves.stay {d e : DState} (h : e = d) : d.Moves e := .inl h

theorem DState.Moves.toInit {d e : DState} (h : e = .init) : d.Moves e := .inr (.inl h)

theorem decoderStep_moves (x : Snapshot) (s : State) : s.dstate.Moves (decoderStep x s).dstate := by
  rcases decoderStep_cases x s with ⟨hi, -, e⟩ | ⟨n, -, -, -, -, e⟩ | ⟨n, hn, h1, h6, -, e⟩ | ⟨-, e⟩ | e <;> rw [e]
  · exact .inr (.inr (.inl ⟨hi, rfl⟩))
  · exact .stay rfl
  · subst hn
    have hnotInit : s.dstate ≠ .init := fun hi => absurd (hi ▸ h6) (by decide)
    exact .inr (.inr (.inr ⟨hnotInit, afterDigit_code_succ h1⟩))
  · exact .toInit rfl
  · exact .stay rfl

/-- The falling edge keeps the decoder's state, or resets the decoder with `finish()` (R163, R165). -/
theorem fallingEdge_moves (s : State) : s.dstate.Moves (fallingEdge s).dstate := by
  rcases fallingEdge_cases s with ⟨-, e⟩ | ⟨-, e⟩ <;> rw [e]
  · exact .toInit rfl
  · exact .stay rfl

/-- Only STEP and WAKE with MUP high feed the decoder; every other event keeps its state or resets it. -/
theorem exec_moves {i : Instr} {s t : State} (he : exec i s = .next t) : s.dstate.Moves t.dstate := by
  rcases exec_next_cases he with ⟨-, rfl⟩ | ⟨-, ⟨x, -, rfl⟩ | ⟨-, rfl⟩ | ⟨c, -, rfl⟩ | ⟨-, rfl⟩ | ⟨x, -, rfl⟩ | ⟨x, -, -, rfl⟩ |
    ⟨x, -, -, rfl⟩ | ⟨-, -, rfl⟩ | ⟨n, -, -, -, -, rfl⟩ | ⟨-, -, -, rfl⟩ | ⟨-, rfl⟩⟩
  · exact .stay rfl
  · exact decoderStep_moves x s
  · exact .toInit rfl
  · exact .stay rfl
  · exact .stay (txAdvance_dstate s)
  · exact decoderStep_moves x { s with phase := .capturing }
  · exact .stay rfl
  · exact fallingEdge_moves s
  · exact .stay (emitBit_dstate s)
  · exact .stay rfl
  · exact .toInit rfl
  · exact .toInit rfl

/-- Settles O22: a wait and a refusal keep the decoder's state, and an event moves it as `exec_moves` says. -/
theorem decoderStatesDescendOneAtATime : Obligations.DecoderStatesDescendOneAtATime := by
  intro s t hstep
  change s.dstate.Moves t.dstate
  rcases step_cases s with ⟨-, e⟩ | ⟨o, rest, -, -, e⟩ | ⟨o, rest, i, -, -, e⟩ <;> rw [e] at hstep
  · exact .stay (congrArg State.dstate (next_inj hstep)).symm
  · exact .stay (congrArg State.dstate (next_inj hstep)).symm
  · exact exec_moves (s := takeOffer rest s) hstep

end Sys2Proof.Machine
end

section
/-! PROOFS. `next_bit()` in the transmitter unit: TXN returns the bit it takes (R142), or reports that none is left (R143). -/

namespace Sys2Proof.Machine

/-- The transmitter unit accepts TXN in every state (R81), so TXN advances the register and returns its result. -/
theorem exec_txn_transmitterUnit {s : State} (h : s.model = .transmitterUnit) :
    exec .txn s = .next { txAdvance s with result := some (txResult s) } :=
  exec_admitted (by simp [admitted, accepts, h])

/-- Settles O27: with no bit left, `txAdvance` is the identity and the result is 0b00. -/
theorem txnReportsNoBit : Obligations.TxnReportsNoBit := by
  intro s hmodel hcount
  rw [exec_txn_transmitterUnit hmodel, txAdvance_zero s hcount, txResult_zero hcount]

end Sys2Proof.Machine
end

section
/-! PROOFS. The mode scheduler in the whole block: a WAKE with MUP high (R161), and the two cases of a TICK that go on with the
transmission (R168, R169). -/

namespace Sys2Proof.Machine

/-- R81, R193: with `bus_irq_en` = 1 the whole block admits WAKE. -/
theorem exec_wake_wholeBlock {s : State} (hmodel : s.model = .wholeBlock) (hirq : s.busIrqEn = true) (mup : Bool) (x : Snapshot) :
    exec (.wake mup x) s = wakeEffect mup x s :=
  exec_admitted (by simp [admitted, accepts, wakeAdmitted, hmodel, hirq])

/-- R81, R193: with `timer_run` = 1 the whole block admits TICK. -/
theorem exec_tick_wholeBlock {s : State} (hmodel : s.model = .wholeBlock) (htimer : s.timerRun = true) :
    exec .tick s = tickEffect s :=
  exec_admitted (by simp [admitted, accepts, tickAdmitted, hmodel, htimer])

/-- The transmitter unit accepts TXB in every state (R81). -/
theorem exec_txb_transmitterUnit {s : State} (h : s.model = .transmitterUnit) (c : Byte) :
    exec (.txb c) s = .next (txBegin c s) :=
  exec_admitted (by simp [admitted, accepts, h])

/-- Settles O29: `captureSample` is the decoder's step in `Capturing`; that step writes only the decoder's fields and does not
depend on which model runs. -/
theorem wakeHighFeedsTheDecoder : Obligations.WakeHighFeedsTheDecoder := by
  intro s x hmodel hirq
  refine ⟨captureSample x s, _, exec_wake_wholeBlock hmodel hirq true x, exec_step_decoderUnit rfl x, ?_⟩
  obtain ⟨hstate, hdp, hdone, hbuf⟩ :=
    decoderStep_agree (x := x) (s := { s with model := .decoderUnit, phase := .capturing })
      (u := { s with phase := .capturing }) rfl rfl rfl rfl rfl
  rw [hstate, hdp, hdone, hbuf]
  exact decoderStep_frame x { s with phase := .capturing }

theorem tickEffect_emit {s : State} (hcount : s.txCount ≠ 0) : tickEffect s = .next (emitBit s) := if_pos hcount

theorem tickEffect_load {s : State} {i : BufIdx} (hcount : s.txCount = 0) (hmore : s.ci.toNat + 1 < s.txLen.toNat)
    (hi : i.val = s.ci.toNat + 1) : tickEffect s = .next (loadNext i s) := by
  have hidx : i = ⟨s.ci.toNat + 1, hi ▸ i.isLt⟩ := Fin.ext hi
  rw [tickEffect, if_neg (not_not.mpr hcount), dif_pos hmore, hidx]

/-- With bits left, bit 0 of what `next_bit()` returns is the register's lowest bit (R142, R82). -/
theorem txResult_bit {s : State} (hcount : s.txCount ≠ 0) : (txResult s).getLsbD 0 = decide (s.txShift % 2 = 1) := by
  rw [txResult_pos hcount]
  by_cases hbit : s.txShift % 2 = 1 <;> simp [hbit]

/-- Settles O35: the tick drives the pin with the bit that `next_bit()` takes out of the register. -/
theorem tickEmitsTheLowestBit : Obligations.TickEmitsTheLowestBit := by
  intro s hmodel htimer hcount hrange
  rw [exec_tick_wholeBlock hmodel htimer, tickEffect_emit hcount, emitBit, txAdvance_pos_eq hcount hrange, txResult_bit hcount]

/-- Settles O36: `loadNext` loads the register as `txBegin` does; and a state of a run with a character still to send is in the
transmit phase, where the line rests at 1 once no bit is left. -/
theorem tickLoadsTheNextCharacter : Obligations.TickLoadsTheNextCharacter := by
  intro s i hmodel htimer hcount hmore hi
  constructor
  · refine ⟨_, exec_txb_transmitterUnit rfl _, ?_⟩
    have hci : BitVec.ofNat 4 i.val = s.ci + 1 := by bv_omega
    rw [exec_tick_wholeBlock hmodel htimer, tickEffect_load hcount hmore hi, loadNext, hci]
    rfl
  · intro hinv
    exact hinv.lineIdle (hinv.timer.mp htimer) (.inl hcount)

end Sys2Proof.Machine
end

section
/-! PROOFS. No offer stops the machine under the invariants of R34 (R190): each of the two faults of the model (log 10) stands in a
state in which R193 and the invariants exclude its event. -/

namespace Sys2Proof.Machine

/-- Taking an offer writes only the model's own fields, of which no invariant speaks. -/
theorem BlockInv.takeOffer {s : State} (h : BlockInv s) (rest : List Offer) : BlockInv (takeOffer rest s) := { h with }

/-- R193 and R34 (a): a wake is admitted only outside the transmit phase. -/
theorem BlockInv.not_transmitting_of_wake {s : State} (h : BlockInv s) {mup : Bool} {x : Snapshot}
    (ha : admitted s (.wake mup x) = true) : s.phase ≠ .transmitting :=
  h.busIrq.mp (Bool.and_eq_true_iff.mp ha).2

/-- R193 and R34 (a), (c): a tick is admitted only while a character is being sent. -/
theorem BlockInv.ci_lt_txLen_of_tick {s : State} (h : BlockInv s) (ha : admitted s .tick = true) :
    s.ci.toNat < s.txLen.toNat :=
  h.sending (h.timer.mp (Bool.and_eq_true_iff.mp ha).2)

theorem wakeEffect_next {s : State} (hphase : s.phase ≠ .transmitting) (mup : Bool) (x : Snapshot) :
    ∃ t, wakeEffect mup x s = .next t := by
  rcases wakeEffect_cases mup x s with ⟨-, e⟩ | ⟨-, -, e⟩ | ⟨-, -, e⟩ | ⟨-, htransmitting, -⟩
  · exact ⟨_, e⟩
  · exact ⟨_, e⟩
  · exact ⟨_, e⟩
  · exact absurd htransmitting hphase

theorem tickEffect_next {s : State} (hsending : s.ci.toNat < s.txLen.toNat) : ∃ t, tickEffect s = .next t := by
  rcases tickEffect_cases s with ⟨-, e⟩ | ⟨_, -, -, -, e⟩ | ⟨-, -, e⟩ | ⟨-, hpast, -⟩
  · exact ⟨_, e⟩
  · exact ⟨_, e⟩
  · exact ⟨_, e⟩
  · omega

/-- Of the eight events only WAKE and TICK have a state without a case. -/
theorem effectOf_next {i : Instr} {s : State} (h : BlockInv s) (ha : admitted s i = true) : ∃ t, effectOf i s = .next t := by
  cases i with
  | wake mup x => exact wakeEffect_next (h.not_transmitting_of_wake ha) mup x
  | tick => exact tickEffect_next (h.ci_lt_txLen_of_tick ha)
  | step x => exact ⟨_, rfl⟩
  | drst => exact ⟨_, rfl⟩
  | txb c => exact ⟨_, rfl⟩
  | txn => exact ⟨_, rfl⟩
  | srst => exact ⟨_, rfl⟩
  | reserved p => exact ⟨_, rfl⟩

/-- An event that is not admitted is refused, and a refusal is a next state (R192, log 2). -/
theorem exec_next {s : State} (h : BlockInv s) (i : Instr) : ∃ t, exec i s = .next t := by
  cases ha : admitted s i with
  | false => exact ⟨_, exec_not_admitted ha⟩
  | true =>
    rw [exec_admitted ha]
    exact effectOf_next h ha

/-- Settles O43: a wait and a refusal are next states, and the event of an offer has one by `exec_next`. -/
theorem everyStepHasANextState : Obligations.EveryStepHasANextState := by
  intro s h
  rcases step_cases s with ⟨-, e⟩ | ⟨_, _, -, -, e⟩ | ⟨_, rest, i, -, -, e⟩
  · exact ⟨_, e⟩
  · exact ⟨_, e⟩
  · rw [e]
    exact exec_next (h.takeOffer rest) i

end Sys2Proof.Machine
end

section
/-! PROOFS. The encoding of events: what a row's pattern says about a field of a word, the round trips between words and events, and
the refusal of a word that is no event (R71 to R79, R84). -/

namespace Sys2Proof

/-! ### Words and rows -/

/-- A word with a row's pattern agrees with the pattern in every field the row's mask keeps whole (R84). -/
theorem OpRow.extractLsb'_of_matches {r : OpRow} {w : EventWord} (h : r.matches w = true) {start len : Nat}
    (hmask : r.mask.extractLsb' start len = BitVec.allOnes len) :
    w.extractLsb' start len = r.pattern.extractLsb' start len := by
  rw [← beq_iff_eq.mp h, BitVec.extractLsb'_and, hmask, BitVec.and_allOnes]

/-- Decoding holds a word against the row of its kind (R84). -/
theorem decode_of_kind {w : EventWord} {kind : Nat} {row : OpRow} (hkind : (w.extractLsb' 13 3).toNat = kind)
    (hrow : opTable[kind]? = some row) :
    decode w = if row.matches w then .ok (decodeKind w kind) else .error (.reservedBits row.mnemonic) := by
  subst hkind
  simp only [decode, hrow]

/-- A word that decodes has the pattern of its kind's row, and its event is the one of its kind and fields (R84). -/
theorem matches_of_decode {w : EventWord} {i : Instr} (h : decode w = .ok i) :
    ∃ kind row, opTable[kind]? = some row ∧ row.matches w = true ∧ decodeKind w kind = i := by
  have hrow : opTable[(w.extractLsb' 13 3).toNat]? = some _ := List.getElem?_eq_getElem (w.extractLsb' 13 3).isLt
  rw [decode_of_kind rfl hrow] at h
  split at h
  · next hm => exact ⟨_, _, hrow, hm, Except.ok.inj h⟩
  · cases h

/-! ### Snapshots -/

theorem ofBool_getLsbD_eq_extractLsb' (w : EventWord) (k : Nat) : BitVec.ofBool (w.getLsbD k) = w.extractLsb' k 1 := by
  ext j hj
  obtain rfl : j = 0 := by omega
  simp [BitVec.getElem_extractLsb']

/-- Eleven bits of a snapshot under five bits of anything give the snapshot back (R77). -/
theorem unpackSnapshot_append (hi : BitVec 5) (x : Snapshot) : unpackSnapshot (hi ++ packSnapshot x) = x := by
  unfold unpackSnapshot packSnapshot
  congr 1
  · rw [BitVec.extractLsb'_append_eq_of_add_le (by decide), BitVec.extractLsb'_append_eq_right]
  · rw [BitVec.extractLsb'_append_eq_of_add_le (by decide), BitVec.extractLsb'_append_eq_of_le (by decide),
      BitVec.extractLsb'_append_eq_right]
  all_goals simp only [BitVec.getLsbD_append]; simp

/-- The bits of a word's snapshot are the word's bits [10:0] (R77). -/
theorem packSnapshot_unpackSnapshot (w : EventWord) : packSnapshot (unpackSnapshot w) = w.extractLsb' 0 11 := by
  simp only [packSnapshot, unpackSnapshot, ofBool_getLsbD_eq_extractLsb']
  iterate 5 rw [BitVec.extractLsb'_append_extractLsb'_eq_extractLsb' (by rfl)]

/-! ### The round trips -/

/-- The number of an event's kind, the position of its row in the opcode table (R72). -/
def Instr.kind : Instr → Nat
  | .step _ => 0
  | .drst => 1
  | .txb _ => 2
  | .txn => 3
  | .wake _ _ => 4
  | .tick => 5
  | .srst => 6
  | .reserved _ => 7

theorem opTable_kind (i : Instr) : opTable[i.kind]? = some i.row := by cases i <;> rfl

theorem encode_matches (i : Instr) : i.row.matches (encode i) = true := by
  cases i with
  | step x => exact (Laws.RowPattern.step x).1
  | drst => exact Laws.RowPattern.drst.1
  | txb c => exact (Laws.RowPattern.txb c).1
  | txn => exact Laws.RowPattern.txn.1
  | wake mup x => exact (Laws.RowPattern.wake mup x).1
  | tick => exact Laws.RowPattern.tick.1
  | srst => exact Laws.RowPattern.srst.1
  | reserved p => exact (Laws.RowPattern.reserved p).1

/-- The eight rows by kind (R72). -/
theorem opTable_cases {kind : Nat} {row : OpRow} (h : opTable[kind]? = some row) :
    (kind = 0 ∧ row = rowStep) ∨ (kind = 1 ∧ row = rowDrst) ∨ (kind = 2 ∧ row = rowTxb) ∨ (kind = 3 ∧ row = rowTxn) ∨
    (kind = 4 ∧ row = rowWake) ∨ (kind = 5 ∧ row = rowTick) ∨ (kind = 6 ∧ row = rowSrst) ∨
    (kind = 7 ∧ row = rowReserved) := by
  obtain ⟨hlt, hrow⟩ := List.getElem?_eq_some_iff.mp h
  have hlt : kind < 8 := hlt
  interval_cases kind <;> subst hrow <;> simp [opTable]

/-- Every row's mask keeps the kind's bits, and its pattern has the kind there (R71, R72). -/
theorem opTable_kindBits {kind : Nat} {row : OpRow} (h : opTable[kind]? = some row) :
    row.mask.extractLsb' 13 3 = BitVec.allOnes 3 ∧ (row.pattern.extractLsb' 13 3).toNat = kind := by
  rcases opTable_cases h with ⟨rfl, rfl⟩ | ⟨rfl, rfl⟩ | ⟨rfl, rfl⟩ | ⟨rfl, rfl⟩ | ⟨rfl, rfl⟩ | ⟨rfl, rfl⟩ | ⟨rfl, rfl⟩ |
    ⟨rfl, rfl⟩ <;> decide

theorem encode_kind (i : Instr) : ((encode i).extractLsb' 13 3).toNat = i.kind := by
  obtain ⟨hmask, hpattern⟩ := opTable_kindBits (opTable_kind i)
  rw [OpRow.extractLsb'_of_matches (encode_matches i) hmask, hpattern]

/-- The fields of an event's word are the event's operands (R73 to R77). -/
theorem decodeKind_encode (i : Instr) : decodeKind (encode i) i.kind = i := by
  cases i with
  | step x => exact congrArg Instr.step (unpackSnapshot_append _ x)
  | txb c => exact congrArg Instr.txb BitVec.extractLsb'_append_eq_right
  | wake mup x =>
    have hmup : (0b1000#4 ++ BitVec.ofBool mup ++ packSnapshot x : BitVec 16).getLsbD 11 = mup := by
      simp only [BitVec.getLsbD_append]; simp
    exact congrArg₂ Instr.wake hmup (unpackSnapshot_append (0b1000#4 ++ BitVec.ofBool mup) x)
  | reserved p => exact congrArg Instr.reserved BitVec.extractLsb'_append_eq_right
  | drst => rfl
  | txn => rfl
  | tick => rfl
  | srst => rfl

/-- Settles O4: the word's kind selects the event's row, the word has the row's pattern, and its fields are the operands. -/
theorem decodeOfEncode : Obligations.DecodeOfEncode := by
  intro i
  rw [decode_of_kind (encode_kind i) (opTable_kind i), if_pos (encode_matches i), decodeKind_encode]

/-- A word with the pattern of a row without fields is the pattern. -/
theorem OpRow.eq_of_matches {r : OpRow} {w : EventWord} (h : r.matches w = true) (hmask : r.mask = BitVec.allOnes 16) :
    w = r.pattern := by
  rw [← beq_iff_eq.mp h, hmask, BitVec.and_allOnes]

/-- A word of kind 111 is its kind's bits and its 13 low bits (R79). -/
theorem encode_reserved_of_kind {w : EventWord} (h : w.extractLsb' 13 3 = 0b111#3) :
    encode (.reserved (w.extractLsb' 0 13)) = w := by
  rw [encode, ← h, BitVec.extractLsb'_append_extractLsb'_eq_extractLsb' (by rfl), BitVec.extractLsb'_eq_self]

/-- The word of the event a row gives a word is the word: outside the fields both are the row's pattern (R73 to R76). -/
theorem encode_decodeKind {w : EventWord} {kind : Nat} {row : OpRow} (hrow : opTable[kind]? = some row)
    (hm : row.matches w = true) : encode (decodeKind w kind) = w := by
  have hjoin {lo hi : Nat} : w.extractLsb' lo hi ++ w.extractLsb' 0 lo = w.extractLsb' 0 (hi + lo) :=
    BitVec.extractLsb'_append_extractLsb'_eq_extractLsb' (by omega)
  rcases opTable_cases hrow with ⟨rfl, rfl⟩ | ⟨rfl, rfl⟩ | ⟨rfl, rfl⟩ | ⟨rfl, rfl⟩ | ⟨rfl, rfl⟩ | ⟨rfl, rfl⟩ | ⟨rfl, rfl⟩ |
    ⟨rfl, rfl⟩
  · have hhi : w.extractLsb' 11 5 = 0b00000#5 := OpRow.extractLsb'_of_matches hm (by decide)
    rw [decodeKind, encode, packSnapshot_unpackSnapshot, ← hhi, hjoin, BitVec.extractLsb'_eq_self]
  · exact (OpRow.eq_of_matches hm rfl).symm
  · have hhi : w.extractLsb' 8 8 = 0b01000000#8 := OpRow.extractLsb'_of_matches hm (by decide)
    rw [decodeKind, encode, ← hhi, hjoin, BitVec.extractLsb'_eq_self]
  · exact (OpRow.eq_of_matches hm rfl).symm
  · have hhi : w.extractLsb' 12 4 = 0b1000#4 := OpRow.extractLsb'_of_matches hm (by decide)
    rw [decodeKind, encode, packSnapshot_unpackSnapshot, ofBool_getLsbD_eq_extractLsb', ← hhi,
      BitVec.extractLsb'_append_extractLsb'_eq_extractLsb' (by rfl), hjoin, BitVec.extractLsb'_eq_self]
  · exact (OpRow.eq_of_matches hm rfl).symm
  · exact (OpRow.eq_of_matches hm rfl).symm
  · exact encode_reserved_of_kind (OpRow.extractLsb'_of_matches hm (by decide))

/-- Settles O5: a word that decodes has its row's pattern, and the event holds the word's fields. -/
theorem encodeOfDecode : Obligations.EncodeOfDecode := by
  intro w i h
  obtain ⟨kind, row, hrow, hm, rfl⟩ := matches_of_decode h
  exact encode_decodeKind hrow hm

/-- Settles O3: each word is decoded by computation. -/
theorem exampleWordsDecode : Obligations.ExampleWordsDecode := by
  unfold Obligations.ExampleWordsDecode
  decide

end Sys2Proof

namespace Sys2Proof.Machine

/-! ### One step of an offer -/

/-- Settles O6: the offered word stands for the event it decodes to. -/
theorem stepRunsTheOfferedWord : Obligations.StepRunsTheOfferedWord := by
  intro s w rest i hevents hdecode
  have hevent : offeredEvent (.word w) = some i := by rw [offeredEvent, hdecode]; rfl
  rw [step_offer hevents, hevent]
  rfl

/-- Settles O7: two port levels stand for the wake of their lines. -/
theorem stepRunsTheSampledWake : Obligations.StepRunsTheSampledWake := by
  intro s a b rest hevents
  rw [step_offer hevents]
  rfl

/-- Settles O8: with nothing offered a step is `lowPowerWait`. -/
theorem stepWaitsWhenNothingIsOffered : Obligations.StepWaitsWhenNothingIsOffered := fun _ => step_idle

/-! ### Words that are no event -/

/-- A word that misses the pattern of its kind's row in a field the row's mask keeps decodes to no event (R79). -/
theorem decode_error_of_field {w : EventWord} {kind start len : Nat} {row : OpRow} (hkind : (w.extractLsb' 13 3).toNat = kind)
    (hrow : opTable[kind]? = some row) (hmask : row.mask.extractLsb' start len = BitVec.allOnes len)
    (hfield : w.extractLsb' start len ≠ row.pattern.extractLsb' start len) :
    decode w = .error (.reservedBits row.mnemonic) := by
  rw [decode_of_kind hkind hrow, if_neg fun hm => hfield (OpRow.extractLsb'_of_matches hm hmask)]

/-- A word of kind 111 decodes to the reserved event (log 17). -/
theorem decode_reserved {w : EventWord} (h : w.extractLsb' 13 3 = 0b111#3) : decode w = .ok (.reserved (w.extractLsb' 0 13)) := by
  rw [← decodeOfEncode, encode_reserved_of_kind h]

/-- An offered word that decodes to no event, or to the reserved one, is refused (R79, R192). -/
theorem step_word_refused {s : State} {w : EventWord} {rest : List Offer} (hevents : s.events = .word w :: rest)
    (h : (∃ e, decode w = .error e) ∨ ∃ p, decode w = .ok (.reserved p)) :
    step s = .next (refuseEvent (takeOffer rest s)) := by
  rw [step_offer hevents, offeredEvent]
  rcases h with ⟨e, h⟩ | ⟨p, h⟩ <;> rw [h] <;> rfl

/-- Settles O9: a reserved bit makes the word miss its row's pattern in a field the mask keeps; kind 111 has the reserved event. -/
theorem wordWithAReservedBitIsRefused : Obligations.WordWithAReservedBitIsRefused := by
  intro s w rest hevents hbad
  refine step_word_refused hevents ?_
  rcases hbad with ⟨hk, hf⟩ | ⟨hk, hf⟩ | ⟨hk, hf⟩ | ⟨hk, hf⟩ | ⟨hk, hf⟩ | ⟨hk, hf⟩ | ⟨hk, hf⟩ | hk
  · exact .inl ⟨_, decode_error_of_field (congrArg BitVec.toNat hk) rfl (by decide) hf⟩
  · exact .inl ⟨_, decode_error_of_field (congrArg BitVec.toNat hk) rfl (by decide) hf⟩
  · exact .inl ⟨_, decode_error_of_field (congrArg BitVec.toNat hk) rfl (by decide) hf⟩
  · exact .inl ⟨_, decode_error_of_field (congrArg BitVec.toNat hk) rfl (by decide) hf⟩
  · have hfield : w.extractLsb' 12 1 ≠ 0 := by rw [← ofBool_getLsbD_eq_extractLsb', hf]; decide
    exact .inl ⟨_, decode_error_of_field (congrArg BitVec.toNat hk) rfl (by decide) hfield⟩
  · exact .inl ⟨_, decode_error_of_field (congrArg BitVec.toNat hk) rfl (by decide) hf⟩
  · exact .inl ⟨_, decode_error_of_field (congrArg BitVec.toNat hk) rfl (by decide) hf⟩
  · exact .inr ⟨_, decode_reserved hk⟩

end Sys2Proof.Machine
end

section
/-! PROOFS. The bus decoder: what a record writes (R113, R118, R119) and that it may be repeated (R124), the decoder reset (R117), which
steps change `done` (R26), and the text a clean pass lays out (R51, R173). -/

namespace Sys2Proof.Machine

/-! ### Recording a digit -/

/-- In `DigitN`, position N is the record of R113. -/
theorem decoderStep_record {s : State} {x : Snapshot} {n : BitVec 3} (hcode : s.dstate.code = n) (h1 : 1 ≤ n) (h6 : n ≤ 6)
    (hpos : x.pos = n) : decoderStep x s = recordDigit n x s := by
  rw [decoderStep_digit hcode h1 h6, digitStep, if_pos hpos]

theorem exec_step_record {s : State} {x : Snapshot} {n : BitVec 3} (hmodel : s.model = .decoderUnit) (hcode : s.dstate.code = n)
    (h1 : 1 ≤ n) (h6 : n ≤ 6) (hpos : x.pos = n) : exec (.step x) s = .next (recordDigit n x s) := by
  rw [exec_step_decoderUnit hmodel, decoderStep_record hcode h1 h6 hpos]

/-- The digit's own byte is not the one its decimal point takes (R119). -/
theorem recordDigit_readBuf_digit {n : BitVec 3} {x : Snapshot} {s : State} (h1 : 1 ≤ n) (h6 : n ≤ 6) :
    (recordDigit n x s).readBuf (digitIdx n (recordDigit n x s).dp) = digitChar s.cfg x.digit := by
  rw [recordDigit_dp, recordDigit_readBuf, if_neg, if_pos rfl]
  rintro ⟨hdp, hidx⟩
  rw [hdp] at hidx
  exact digitIdx_ne_dotIdx h1 h6 hidx

theorem recordDigit_readBuf_dot {n : BitVec 3} {x : Snapshot} {s : State} (h : (recordDigit n x s).dp = n) :
    (recordDigit n x s).readBuf (dotIdx n) = charDot := by
  rw [recordDigit_readBuf, if_pos ⟨h, rfl⟩]

/-- Settles O14: the record's two bytes and its frame. -/
theorem stepRecordsADigit : Obligations.StepRecordsADigit := by
  intro s x n hmodel hcode h1 h6 hpos
  refine ⟨recordDigit n x s, exec_step_record hmodel hcode h1 h6 hpos, rfl, recordDigit_readBuf_digit h1 h6,
    recordDigit_readBuf_dot, fun i hdigit hdot => ?_, rfl⟩
  rw [recordDigit_dp] at hdigit hdot
  rw [recordDigit_readBuf, if_neg fun ⟨hdp, hi⟩ => hdot hdp hi, if_neg hdigit]

/-- R119 on numbers. -/
theorem digitIdx_val (n d : BitVec 3) :
    (digitIdx n d).val = if d ≠ 0 ∧ n.toNat ≤ d.toNat then 8 - n.toNat else 7 - n.toNat := by
  unfold digitIdx
  split
  · next h => exact (if_pos h).symm
  · next h => exact (if_neg h).symm

theorem digitChar_decimal (c : Config) {v : BitVec 4} (h : v.toNat ≤ 9) : (digitChar c v).toNat = 0x30 + v.toNat := by
  have hv : v ≤ 9 := h
  rw [digitChar, if_pos hv]
  bv_omega

theorem digitChar_of_toNat (c : Config) {v : BitVec 4} (u : BitVec 4) (h : v.toNat = u.toNat) : digitChar c v = digitChar c u :=
  congrArg (digitChar c) (BitVec.eq_of_toNat_eq h)

/-- Settles O15: R119 at each position and recorded index, and R118 at each digit value. -/
theorem digitIndexAndCharacter : Obligations.DigitIndexAndCharacter :=
  ⟨fun n d _ _ => ⟨digitIdx_val n d, rfl⟩, fun c _ => ⟨digitChar_decimal c, digitChar_of_toNat c 10, digitChar_of_toNat c 11, digitChar_of_toNat c 12,
    digitChar_of_toNat c 13, digitChar_of_toNat c 14, digitChar_of_toNat c 15⟩⟩

/-- Storing the byte that stands there already leaves the buffer as it is. -/
theorem Memory.set_of_get {d : Byte} {m : Memory} {a : BufIdx} {v : Byte} (hwf : Memory.wf d m) (h : Memory.get d a.val m = v) :
    Memory.set d a v m = m := by
  refine Memory.ext_of_wf (Memory.set_wf a v hwf) hwf fun b => ?_
  rw [Memory.get_set]
  split
  · next hb => rw [hb, h]
  · rfl

/-- A record keeps the buffer's canonical form. -/
theorem recordDigit_wf {n : BitVec 3} {x : Snapshot} {s : State} (h : Memory.wf s.cfg.bufInit s.buf) :
    Memory.wf s.cfg.bufInit (recordDigit n x s).buf := by
  simp only [recordDigit]
  split
  · exact Memory.set_wf _ _ (Memory.set_wf _ _ h)
  · exact Memory.set_wf _ _ h

/-- A record whose decimal point is recorded and whose bytes are in place changes nothing (R113). -/
theorem recordDigit_eq_self {n : BitVec 3} {x : Snapshot} {s : State} (hwf : Memory.wf s.cfg.bufInit s.buf)
    (hdp : recordedDp n x.dec s.dp = s.dp) (hdigit : s.readBuf (digitIdx n s.dp) = digitChar s.cfg x.digit)
    (hdot : s.dp = n → s.readBuf (dotIdx n) = charDot) : recordDigit n x s = s := by
  simp only [recordDigit, hdp, Memory.set_of_get hwf hdigit]
  split
  · next h => rw [Memory.set_of_get hwf (hdot h)]
  · rfl

theorem recordedDp_twice (n : BitVec 3) (dec : Bool) (dp : BitVec 3) :
    recordedDp n dec (recordedDp n dec dp) = recordedDp n dec dp := by
  cases dec <;> rfl

/-- Settles O19: after a record, its decimal point is recorded and its bytes are in place. -/
theorem debounceIsIdempotent : Obligations.DebounceIsIdempotent := by
  intro s x n hmodel hcode h1 h6 hpos hwf
  refine ⟨recordDigit n x s, exec_step_record hmodel hcode h1 h6 hpos, ?_⟩
  rw [exec_step_record (s := recordDigit n x s) hmodel hcode h1 h6 hpos,
    recordDigit_eq_self (recordDigit_wf hwf) (recordedDp_twice n x.dec s.dp) (recordDigit_readBuf_digit h1 h6)
      recordDigit_readBuf_dot]

/-! ### The decoder reset and the completion flag -/

/-- The bytes a decoder reset leaves (R117, R27). -/
theorem decoderReset_readBuf (s : State) (i : BufIdx) :
    (decoderReset s).readBuf i = if s.cfg.resetClearsBuffer then s.cfg.bufInit else s.readBuf i := by
  rw [State.readBuf, decoderReset_buf, decoderReset_cfg]
  split <;> rfl

/-- Settles O20: the decoder unit accepts DRST in every state. -/
theorem drstResetsTheDecoder : Obligations.DrstResetsTheDecoder := by
  intro s hmodel
  exact ⟨decoderReset s, exec_admitted (by simp [admitted, accepts, hmodel]), rfl, rfl, rfl, decoderReset_readBuf s, rfl⟩

/-- R26: why `done` may differ between `s` and the next state `t`. -/
def DoneChangeAllowed (s t : State) : Prop :=
  (s.done = false → t.done = true → s.dstate = .overflowUnit ∧ t.dstate = .init ∧ t.dp = s.dp) ∧
  (s.done = true → t.done = false → t.dstate = .init ∧ t.dp = 0 ∧
    ((∀ i, t.readBuf i = s.cfg.bufInit) ∨ (∀ i, t.readBuf i = s.readBuf i)))

theorem DoneChangeAllowed.of_same {s t : State} (h : t.done = s.done) : DoneChangeAllowed s t :=
  ⟨fun hs ht => (by simp [hs, ht] at h), fun hs ht => (by simp [hs, ht] at h)⟩

/-- A reset of the decoder clears `done` (R117, R165, R221). -/
theorem DoneChangeAllowed.of_reset {s t : State} (hcfg : t.cfg = s.cfg) (hstate : t.dstate = .init) (hdp : t.dp = 0)
    (hdone : t.done = false) (hbuf : t.buf = [] ∨ t.buf = s.buf) : DoneChangeAllowed s t := by
  refine ⟨fun _ ht => by simp [hdone] at ht, fun _ _ => ⟨hstate, hdp, ?_⟩⟩
  exact hbuf.imp (fun hnil i => hcfg ▸ readBuf_of_buf_nil hnil i) (readBuf_congr hcfg)

/-- A finalisation sets `done` (R115); no other snapshot writes it. -/
theorem decoderStep_doneChangeAllowed (x : Snapshot) (s : State) : DoneChangeAllowed s (decoderStep x s) := by
  rcases decoderStep_cases x s with ⟨-, -, e⟩ | ⟨n, -, -, -, -, e⟩ | ⟨n, -, -, -, -, e⟩ | ⟨ho, e⟩ | e <;> rw [e]
  · exact .of_same rfl
  · exact .of_same rfl
  · exact .of_same rfl
  · exact ⟨fun _ _ => ⟨ho, rfl, rfl⟩, fun _ ht => by cases ht⟩
  · exact .of_same rfl

theorem fallingEdge_doneChangeAllowed (s : State) : DoneChangeAllowed s (fallingEdge s) := by
  rcases fallingEdge_cases s with ⟨-, e⟩ | ⟨-, e⟩ <;> rw [e]
  · exact .of_reset rfl rfl rfl rfl (decoderReset_buf_cases s)
  · exact .of_same rfl

theorem exec_doneChangeAllowed {i : Instr} {s t : State} (he : exec i s = .next t) : DoneChangeAllowed s t := by
  rcases exec_next_cases he with ⟨-, rfl⟩ | ⟨-, ⟨x, -, rfl⟩ | ⟨-, rfl⟩ | ⟨c, -, rfl⟩ | ⟨-, rfl⟩ | ⟨x, -, rfl⟩ | ⟨x, -, -, rfl⟩ |
    ⟨x, -, -, rfl⟩ | ⟨-, -, rfl⟩ | ⟨n, -, -, -, -, rfl⟩ | ⟨-, -, -, rfl⟩ | ⟨-, rfl⟩⟩
  · exact .of_same rfl
  · exact decoderStep_doneChangeAllowed x s
  · exact .of_reset rfl rfl rfl rfl (decoderReset_buf_cases s)
  · exact .of_same rfl
  · exact .of_same (txAdvance_done s)
  · exact decoderStep_doneChangeAllowed x { s with phase := .capturing }
  · exact .of_same rfl
  · exact fallingEdge_doneChangeAllowed s
  · exact .of_same (emitBit_done s)
  · exact .of_same rfl
  · exact .of_reset rfl rfl rfl rfl (decoderReset_buf_cases s)
  · exact .of_reset rfl rfl rfl rfl (.inl rfl)

/-- Settles O23: a wait and a refusal keep `done`, and an event changes it as `exec_doneChangeAllowed` says. -/
theorem doneFollowsFinalisationAndReset : Obligations.DoneFollowsFinalisationAndReset := by
  intro s t hstep
  change DoneChangeAllowed s t
  rcases step_cases s with ⟨-, e⟩ | ⟨o, rest, -, -, e⟩ | ⟨o, rest, i, -, -, e⟩ <;> rw [e] at hstep
  · exact .of_same (congrArg State.done (next_inj hstep)).symm
  · exact .of_same (congrArg State.done (next_inj hstep)).symm
  · exact exec_doneChangeAllowed (s := takeOffer rest s) hstep

end Sys2Proof.Machine
end

section
/-! PROOFS. The text a clean pass lays out (R51, R83, R173): after each recorded position the text stands up to that position's digit,
and the finalisation adds the indicator and the tail. -/

namespace Sys2Proof.Machine

/-! ### Bytes from an index on -/

theorem bytesFrom_getElem? (s : State) {k n j : Nat} {i : BufIdx} (hi : i.val = k + j) (hj : j < n) :
    (bytesFrom s k n)[j]? = some (s.readBuf i) := by
  have hget : bufIdxs[k + j]? = some i := by
    rw [← hi, List.getElem?_eq_getElem (show i.val < bufIdxs.length from i.isLt), bufIdxs_getElem i.isLt]
  simp [bytesFrom, hj, hget]

/-- Each byte of the tail stands at its place after a finalisation (R115). -/
theorem finalisePass_readBuf_tail {x : Snapshot} {s : State} {j : Nat} {i : BufIdx} {v : Byte}
    (hi : i.val = tailStart (s.dp != 0) + j) (hv : (finalTail x s.dp)[j]? = some v) :
    (finalisePass x s).readBuf i = v := by
  obtain ⟨hj, -⟩ := List.getElem?_eq_some_iff.mp hv
  rw [← finalisePass_bytesFrom x s, bytesFrom_getElem? _ hi hj] at hv
  exact Option.some.inj hv

/-- The buffer starts with a list of bytes when each byte stands at its index. -/
theorem bytesFrom_zero_eq {s : State} {vs : List Byte} (hfit : vs.length ≤ 15)
    (h : ∀ i : BufIdx, i.val < vs.length → vs[i.val]? = some (s.readBuf i)) : bytesFrom s 0 vs.length = vs := by
  refine List.ext_getElem? fun j => ?_
  by_cases hj : j < vs.length
  · rw [bytesFrom_getElem? s (i := ⟨j, Nat.lt_of_lt_of_le hj hfit⟩) (Nat.zero_add j).symm hj]
    exact (h ⟨j, Nat.lt_of_lt_of_le hj hfit⟩ hj).symm
  · have hlen : (bytesFrom s 0 vs.length).length ≤ j := by
      simp [bytesFrom]
      omega
    rw [List.getElem?_eq_none hlen, List.getElem?_eq_none (by omega)]

/-! ### The text -/

/-- The digit values of a pass, position 6 first. -/
def PassArgs.digits (p : PassArgs) : List (BitVec 4) := [p.d6, p.d5, p.d4, p.d3, p.d2, p.d1]

/-- The characters of a pass between the indicator and the tail (R173). -/
def passBody (c : Config) (p : PassArgs) : List Byte :=
  let chars := p.digits.map (digitChar c)
  if p.dp = 0 then chars else chars.take (6 - p.dp.toNat) ++ [charDot] ++ chars.drop (6 - p.dp.toNat)

theorem passText_eq (c : Config) (p : PassArgs) :
    passText c p = indicator p.ovf :: (passBody c p ++ readingTail (unitOf p.modeA p.modeB (p.dp != 0))) := rfl

theorem passBody_length (c : Config) (p : PassArgs) : (passBody c p).length + 1 = tailStart (p.dp != 0) := by
  rw [tailStart_eq]
  unfold passBody
  split
  · simp [PassArgs.digits]
  · simp [PassArgs.digits]
    omega

/-- A character of the body stands one place further on in the text (R173). -/
theorem passText_getElem?_of_body (c : Config) (p : PassArgs) {j : Nat} {v : Byte} (h : (passBody c p)[j]? = some v) :
    (passText c p)[j + 1]? = some v := by
  obtain ⟨hj, -⟩ := List.getElem?_eq_some_iff.mp h
  rw [passText_eq, List.getElem?_cons_succ, List.getElem?_append_left hj, h]

/-- Without a decimal point the digits follow one another; with one, those from its position down are a place further on (R173). -/
theorem passBody_getElem? (c : Config) (p : PassArgs) {j : Nat} {v : BitVec 4} (hv : p.digits[j]? = some v) :
    (passBody c p)[if p.dp ≠ 0 ∧ 6 - p.dp.toNat ≤ j then j + 1 else j]? = some (digitChar c v) := by
  have hchar : (p.digits.map (digitChar c))[j]? = some (digitChar c v) := by rw [List.getElem?_map, hv]; rfl
  have htake : ((p.digits.map (digitChar c)).take (6 - p.dp.toNat)).length = 6 - p.dp.toNat := by
    simp [PassArgs.digits]
  unfold passBody
  by_cases h0 : p.dp = 0
  · rw [if_pos h0, if_neg fun h => h.1 h0, hchar]
  · rw [if_neg h0]
    by_cases hj : 6 - p.dp.toNat ≤ j
    · rw [if_pos ⟨h0, hj⟩, List.getElem?_append_right (by simp [htake]; omega), List.length_append, htake, List.getElem?_drop,
        ← hchar]
      congr 1
      simp only [List.length_singleton]
      omega
    · rw [if_neg fun h => hj h.2, List.append_assoc, List.getElem?_append_left (by omega), List.getElem?_take_of_lt (by omega), hchar]

/-- The digit of position `n` stands at its index of R119. -/
theorem passText_digit (c : Config) (p : PassArgs) (hp : p.dp ≤ 6) {n : BitVec 3} {v : BitVec 4} (h1 : 1 ≤ n) (h6 : n ≤ 6)
    (hv : p.digits[6 - n.toNat]? = some v) : (passText c p)[(digitIdx n p.dp).val]? = some (digitChar c v) := by
  have hplace : (digitIdx n p.dp).val = (if p.dp ≠ 0 ∧ 6 - p.dp.toNat ≤ 6 - n.toNat then 6 - n.toNat + 1 else 6 - n.toNat) + 1 := by
    have h1 : 1 ≤ n.toNat := h1
    have h6 : n.toNat ≤ 6 := h6
    have hp : p.dp.toNat ≤ 6 := hp
    have hcond : (p.dp ≠ 0 ∧ n.toNat ≤ p.dp.toNat) ↔ p.dp ≠ 0 ∧ 6 - p.dp.toNat ≤ 6 - n.toNat :=
      and_congr_right fun _ => by omega
    rw [digitIdx_val, if_congr hcond rfl rfl]
    split <;> omega
  rw [hplace]
  exact passText_getElem?_of_body c p (passBody_getElem? c p hv)

theorem passText_dot (c : Config) (p : PassArgs) (h0 : p.dp ≠ 0) (hp : p.dp ≤ 6) :
    (passText c p)[(dotIdx p.dp).val]? = some charDot := by
  have hplace : (dotIdx p.dp).val = 6 - p.dp.toNat + 1 := by
    have hp : p.dp.toNat ≤ 6 := hp
    show 7 - p.dp.toNat = _
    omega
  rw [hplace]
  refine passText_getElem?_of_body c p ?_
  simp only [passBody, if_neg h0, List.append_assoc]
  rw [List.getElem?_append_right] <;> simp [PassArgs.digits]

/-! ### Recording the positions one after another -/

/-- `t` is where the pass `p` has got to from `s` once the positions down to `n` are recorded, 7 for none: the text stands up to the
digit of `n`, and its decimal point is recorded if its position is among them. -/
structure RecordedDownTo (p : PassArgs) (s t : State) (n : BitVec 3) : Prop where
  written : ∀ i : BufIdx, 1 ≤ i.val → i.val ≤ (digitIdx n p.dp).val → (passText s.cfg p)[i.val]? = some (t.readBuf i)
  unwritten : ∀ i : BufIdx, i.val = 0 ∨ (digitIdx n p.dp).val < i.val → t.readBuf i = s.readBuf i
  frame : t = { s with dstate := .ofCode n, dp := if n ≤ p.dp then p.dp else 0, buf := t.buf }

/-- The two snapshots of one position (R83). -/
def firstOfPair (n : BitVec 3) (d : BitVec 4) : Snapshot :=
  { pos := n, digit := d, dec := false, ovf := false, modeA := false, modeB := false }

def secondOfPair (n : BitVec 3) (d : BitVec 4) (dp : BitVec 3) : Snapshot := { firstOfPair n d with dec := dp == n }

/-- What the decimal point's record is after position `n` (R113, R126). -/
theorem recordedDp_pass {n dp : BitVec 3} (h1 : 1 ≤ n) (h6 : n ≤ 6) (hdp : dp ≤ 6) :
    recordedDp n (dp == n) (if n + 1 ≤ dp then dp else 0) = if n ≤ dp then dp else 0 := by
  revert n dp; decide

/-- Position `n` records its digit at its index under the pass's decimal point, though a later position may record that (R119). -/
theorem digitIdx_pass {n dp : BitVec 3} (h1 : 1 ≤ n) : digitIdx n (if n ≤ dp then dp else 0) = digitIdx n dp := by
  revert n dp; decide

theorem recordedDp_pass_eq {n dp : BitVec 3} (h1 : 1 ≤ n) : (if n ≤ dp then dp else 0) = n ↔ dp = n := by
  revert n dp; decide

/-- Every byte after the record of a position of a pass (R113, R119). -/
theorem recordDigit_readBuf_pass {n dp : BitVec 3} {x : Snapshot} {s : State} (h1 : 1 ≤ n)
    (hdp : recordedDp n x.dec s.dp = if n ≤ dp then dp else 0) (i : BufIdx) :
    (recordDigit n x s).readBuf i =
      if dp = n ∧ i = dotIdx n then charDot else if i = digitIdx n dp then digitChar s.cfg x.digit else s.readBuf i := by
  simp only [recordDigit_readBuf, hdp, digitIdx_pass h1, recordedDp_pass_eq h1]

/-- Between the digit above and the digit of `n` there is at most the decimal point (R119). -/
theorem digitIdx_gap {n dp : BitVec 3} (h1 : 1 ≤ n) (h6 : n ≤ 6) (hdp : dp ≤ 6) :
    (digitIdx (n + 1) dp).val < (digitIdx n dp).val ∧ (dp = n → (dotIdx n).val < (digitIdx n dp).val) ∧
    ∀ i : BufIdx, i.val ≤ (digitIdx n dp).val → i ≠ digitIdx n dp → (dp = n → i ≠ dotIdx n) →
      i.val ≤ (digitIdx (n + 1) dp).val := by
  revert n dp; decide

/-- What was written over the decoder's fields is written over them again. -/
theorem rewrite_decoder_fields {s t : State} {d : DState} {q : BitVec 3} (h : t = { s with dstate := d, dp := q, buf := t.buf })
    (d' : DState) (q' : BitVec 3) (m : Memory) :
    ({ t with dstate := d', dp := q', buf := m } : State) = { s with dstate := d', dp := q', buf := m } := by
  rw [h]

/-- The record of one position brings the text up to its digit (R113, R119). -/
theorem RecordedDownTo.record {p : PassArgs} {s t : State} {n : BitVec 3} {d : BitVec 4} (h : RecordedDownTo p s t (n + 1))
    (hp : p.dp ≤ 6) (h1 : 1 ≤ n) (h6 : n ≤ 6) (hd : p.digits[6 - n.toNat]? = some d) :
    RecordedDownTo p s (recordDigit n (secondOfPair n d p.dp) { t with dstate := .ofCode n }) n := by
  obtain ⟨hwritten, hunwritten, hframe⟩ := h
  have hcfg : t.cfg = s.cfg := by rw [hframe]
  have hdp : recordedDp n (p.dp == n) t.dp = if n ≤ p.dp then p.dp else 0 := by
    rw [hframe]
    exact recordedDp_pass h1 h6 hp
  obtain ⟨hbelow, hdot, hgap⟩ := digitIdx_gap h1 h6 hp
  have hread := recordDigit_readBuf_pass (x := secondOfPair n d p.dp) (s := { t with dstate := .ofCode n }) h1 hdp
  refine ⟨fun i hi hle => ?_, fun i hi => ?_, ?_⟩
  · rw [hread]
    split_ifs with hisDot hisDigit
    · obtain ⟨rfl, rfl⟩ := hisDot
      exact passText_dot _ _ (fun h0 => absurd (h0 ▸ h1) (by decide)) hp
    · rw [hisDigit]
      exact hcfg ▸ passText_digit t.cfg p hp h1 h6 hd
    · exact hwritten i hi (hgap i hle hisDigit fun hn he => hisDot ⟨hn, he⟩)
  · have hdigitRange := digitIdx_range (d := p.dp) h1 h6
    have hdotRange := dotIdx_range h1 h6
    have hnotDigit : i ≠ digitIdx n p.dp := by
      rintro rfl
      omega
    have hnotDot : ¬ (p.dp = n ∧ i = dotIdx n) := by
      rintro ⟨hn, rfl⟩
      have := hdot hn
      omega
    rw [hread, if_neg hnotDot, if_neg hnotDigit]
    exact hunwritten i (hi.imp_right hbelow.trans)
  · rw [← hdp]
    exact rewrite_decoder_fields hframe _ _ _

/-- The two snapshots of the next position: the first moves the decoder on, the second records (R113, R114). -/
theorem RecordedDownTo.next {p : PassArgs} {s t : State} {n : BitVec 3} {d : BitVec 4} (h : RecordedDownTo p s t (n + 1))
    (hp : p.dp ≤ 6) (h1 : 1 ≤ n) (h5 : n ≤ 5) (hd : p.digits[6 - n.toNat]? = some d) :
    RecordedDownTo p s (decoderStep (secondOfPair n d p.dp) (decoderStep (firstOfPair n d) t)) n := by
  have hcode : t.dstate.code = n + 1 := by
    rw [h.frame]
    exact DState.code_ofCode _
  rw [decoderStep_twice h1 h5 rfl rfl hcode]
  exact h.record hp h1 (by bv_omega) hd

/-- The two snapshots of position 6, in `Init`: the first starts the pass, the second records (R111, R113). -/
theorem recordedDownTo_six {p : PassArgs} {s : State} (hinit : s.dstate = .init) (hp : p.dp ≤ 6) :
    RecordedDownTo p s (decoderStep (secondOfPair 6 p.d6 p.dp) (decoderStep (firstOfPair 6 p.d6) s)) 6 := by
  have hstart : decoderStep (firstOfPair 6 p.d6) s = startPass s := (decoderStep_init hinit).trans (if_pos rfl)
  have hzero : (digitIdx 7 p.dp).val = 0 := by
    have hp : p.dp.toNat ≤ 6 := hp
    rw [digitIdx_val, if_neg fun h => absurd (Nat.le_trans h.2 hp) (by decide)]
    rfl
  have hnone : RecordedDownTo p s { s with dp := 0 } 7 := by
    refine ⟨fun i hi hle => by omega, fun i _ => rfl, ?_⟩
    have hdp : (if 7 ≤ p.dp then p.dp else 0) = 0 := if_neg (by bv_omega)
    show _ = ({ s with dstate := .init, dp := _, buf := s.buf } : State)
    rw [hdp, ← hinit]
  rw [hstart, decoderStep_record (n := 6) rfl (by decide) (by decide) rfl]
  exact hnone.record (n := 6) hp (by decide) (by decide) rfl

/-! ### The whole pass -/

/-- A pass in the decoder unit is its snapshots one after another. -/
theorem runEvents_steps {s : State} (hmodel : s.model = .decoderUnit) (xs : List Snapshot) :
    runEvents (xs.map .step) s = .next (xs.foldl (fun t x => decoderStep x t) s) := by
  induction xs generalizing s with
  | nil => rfl
  | cons x xs ih =>
    rw [List.map_cons, runEvents_cons_next (exec_step_decoderUnit hmodel x), ih (by rw [decoderStep_model, hmodel])]
    rfl

/-- The twelve snapshots of the positions (R83). -/
def positionSnapshots (p : PassArgs) : List Snapshot :=
  positionPair 6 p.d6 p.dp ++ positionPair 5 p.d5 p.dp ++ positionPair 4 p.d4 p.dp ++
  positionPair 3 p.d3 p.dp ++ positionPair 2 p.d2 p.dp ++ positionPair 1 p.d1 p.dp

/-- The last snapshot of a pass (R83). -/
def lastOfPass (p : PassArgs) : Snapshot :=
  { pos := 0, digit := 0, dec := false, ovf := p.ovf, modeA := p.modeA, modeB := p.modeB }

theorem passSnapshots_eq (p : PassArgs) : passSnapshots p = positionSnapshots p ++ [firstOfPair 0 0, lastOfPass p] := rfl

/-- After the twelve snapshots of the positions all six are recorded (R83). -/
theorem recordedDownTo_one {p : PassArgs} {s : State} (hinit : s.dstate = .init) (hp : p.dp ≤ 6) :
    RecordedDownTo p s ((positionSnapshots p).foldl (fun t x => decoderStep x t) s) 1 := by
  have h6 := recordedDownTo_six hinit hp
  have h5 := h6.next (n := 5) (d := p.d5) hp (by decide) (by decide) rfl
  have h4 := h5.next (n := 4) (d := p.d4) hp (by decide) (by decide) rfl
  have h3 := h4.next (n := 3) (d := p.d3) hp (by decide) (by decide) rfl
  have h2 := h3.next (n := 2) (d := p.d2) hp (by decide) (by decide) rfl
  exact h2.next (n := 1) (d := p.d1) hp (by decide) (by decide) rfl

/-- The tail of the text begins at the index `k0` of R115. -/
theorem passText_tail (c : Config) (p : PassArgs) (j : Nat) :
    (passText c p)[tailStart (p.dp != 0) + j]? = (readingTail (unitOf p.modeA p.modeB (p.dp != 0)))[j]? := by
  rw [passText_eq, ← passBody_length c p, Nat.add_right_comm, List.getElem?_cons_succ,
    List.getElem?_append_right (Nat.le_add_right _ _), Nat.add_sub_cancel_left]

theorem passText_length (c : Config) (p : PassArgs) :
    (passText c p).length = tailStart (p.dp != 0) + (readingTail (unitOf p.modeA p.modeB (p.dp != 0))).length := by
  rw [passText_eq, List.length_cons, List.length_append, ← passBody_length c p]
  omega

theorem passText_fits (c : Config) (p : PassArgs) : (passText c p).length ≤ 15 := by
  have hstart := tailStart_range (p.dp != 0)
  have htail := readingTail_fits p.modeA p.modeB (p.dp != 0)
  rw [tailIdxs_length] at htail
  rw [passText_length]
  omega

/-- The digit of position 1 is the last byte before the tail (R115, R119). -/
theorem digitIdx_one (dp : BitVec 3) : (digitIdx 1 dp).val + 1 = tailStart (dp != 0) := by
  revert dp; decide

/-- In `Digit1`, position 0 moves on to `OverflowUnit`, where the last snapshot finalises (R114, R115). -/
theorem decoderStep_lastPair (p : PassArgs) {t : State} (hcode : t.dstate.code = 1) :
    decoderStep (lastOfPass p) (decoderStep (firstOfPair 0 0) t) = finalisePass (lastOfPass p) t := by
  rw [decoderStep_digit hcode (by decide) (by decide), digitStep_advance t rfl, decoderStep_overflow rfl]
  rfl

theorem RecordedDownTo.dp_eq {p : PassArgs} {s t : State} (h : RecordedDownTo p s t 1) : t.dp = p.dp := by
  have hdp : ∀ dp : BitVec 3, (if 1 ≤ dp then dp else 0) = dp := by decide
  rw [h.frame]
  exact hdp p.dp

/-- What a finalisation writes over a pass's fields leaves the fields of the start, the buffer and two of the decoder's apart (R115). -/
theorem RecordedDownTo.finalised_frame {p : PassArgs} {s t : State} (h : RecordedDownTo p s t 1) (hinit : s.dstate = .init)
    (m : Memory) : ({ t with dstate := .init, done := true, buf := m } : State) = { s with buf := m, dp := p.dp, done := true } := by
  rw [← h.dp_eq, ← hinit, h.frame]

/-- The finalisation of a pass completes the text with the indicator and the tail, and leaves what stands after it (R115, R173). -/
theorem RecordedDownTo.finalise {p : PassArgs} {s t : State} (h : RecordedDownTo p s t 1) :
    (∀ i : BufIdx, i.val < (passText s.cfg p).length →
      (passText s.cfg p)[i.val]? = some ((finalisePass (lastOfPass p) t).readBuf i)) ∧
    ∀ i : BufIdx, (passText s.cfg p).length ≤ i.val → (finalisePass (lastOfPass p) t).readBuf i = s.readBuf i := by
  have hlast := digitIdx_one p.dp
  have hlen := passText_length s.cfg p
  have htail : finalTail (lastOfPass p) t.dp = readingTail (unitOf p.modeA p.modeB (p.dp != 0)) := by
    rw [h.dp_eq]
    rfl
  refine ⟨fun i hi => ?_, fun i hi => ?_⟩
  · rcases Nat.eq_zero_or_pos i.val with h0 | hpos
    · obtain rfl : i = 0 := Fin.ext h0
      rw [finalisePass_readBuf_zero]
      rfl
    · by_cases hbody : i.val < tailStart (p.dp != 0)
      · rw [finalisePass_readBuf_other (by omega) (.inl (h.dp_eq.symm ▸ hbody))]
        exact h.written i hpos (by omega)
      · obtain ⟨j, hj⟩ : ∃ j, i.val = tailStart (p.dp != 0) + j := ⟨i.val - tailStart (p.dp != 0), by omega⟩
        have hv := passText_tail s.cfg p j
        rw [← hj, List.getElem?_eq_getElem hi] at hv
        rw [List.getElem?_eq_getElem hi, finalisePass_readBuf_tail (h.dp_eq.symm ▸ hj) (htail.symm ▸ hv.symm)]
  · have hstart := tailStart_range (p.dp != 0)
    rw [finalisePass_readBuf_other (by omega) (.inr (by rw [htail, h.dp_eq]; omega))]
    exact h.unwritten i (.inr (by omega))

/-- Settles O21: the twelve snapshots of the positions lay out the text up to the last digit, and the last two finalise the pass. -/
theorem cleanPassLaysOutTheReading : Obligations.CleanPassLaysOutTheReading := by
  intro s p hmodel hinit hp
  have h := recordedDownTo_one hinit hp
  have hrun := runEvents_steps hmodel (passSnapshots p)
  rw [passSnapshots_eq, List.foldl_append] at hrun
  generalize (positionSnapshots p).foldl (fun t x => decoderStep x t) s = t at h hrun
  have hcode : t.dstate.code = 1 := by
    rw [h.frame]
    rfl
  obtain ⟨htext, hafter⟩ := h.finalise
  refine ⟨finalisePass (lastOfPass p) t, ?_, bytesFrom_zero_eq (passText_fits s.cfg p) htext, hafter, h.finalised_frame hinit _⟩
  rw [← decoderStep_lastPair p hcode]
  exact hrun

end Sys2Proof.Machine
end

section
/-! PROOFS. The transmitter unit: the frame TXB loads (R140), the bit TXN takes (R142), and a whole frame drained (R141, R147). -/

namespace Sys2Proof.Machine

/-- Settles O25: the register holds the loaded frame. -/
theorem txbLoadsTheFrame : Obligations.TxbLoadsTheFrame := by
  intro s c hmodel
  exact ⟨txBegin c s, exec_txb_transmitterUnit hmodel c, rfl, shiftLoad_lt _ c, fun k hk => shiftLoad_getLsbD c hk, rfl⟩

/-- Settles O26: with bits left, `txAdvance` shifts the register and the result is its lowest bit. -/
theorem txnYieldsTheLowestBit : Obligations.TxnYieldsTheLowestBit := by
  intro s hmodel hcount hrange
  rw [exec_txn_transmitterUnit hmodel, txAdvance_pos_eq hcount hrange, txResult_pos hcount]

/-! ### A whole frame -/

/-- What TXN returns for a bit taken (R82). -/
def bitTaken (b : Bool) : Option (BitVec 2) := some (if b then 0b11 else 0b10)

theorem drain_succ {n : Nat} {s t : State} (h : exec .txn s = .next t) : drain (n + 1) s = t.result :: drain n t := by
  rw [drain, h]

/-- With `m` bits of the frame `f` left, the next `m` TXN return them in order and one more returns no bit (R141 to R143). -/
theorem drain_frame {f m : Nat} {s : State} (hmodel : s.model = .transmitterUnit) (hm : m ≤ 9) (hcount : s.txCount.toNat = m)
    (hrange : s.txShift < 2 ^ s.cfg.txRegWidth) (hleft : s.txShift % 2 ^ m = f >>> (9 - m)) :
    drain (m + 1) s = (List.range' (9 - m) m).map (fun k => bitTaken (f.testBit k)) ++ [some 0b00] := by
  induction m generalizing s with
  | zero =>
    have hzero : s.txCount = 0 := BitVec.eq_of_toNat_eq hcount
    exact drain_succ (txnReportsNoBit s hmodel hzero)
  | succ m ih =>
    have hpos : s.txCount ≠ 0 := by bv_omega
    have hbit : decide (s.txShift % 2 = 1) = f.testBit (9 - (m + 1)) := frame_low_bit (by omega) hleft
    have hpred : (s.txCount - 1).toNat = m := by bv_omega
    have hstart : 9 - m = 9 - (m + 1) + 1 := by omega
    have hrest := fun r => ih (s := { s with txShift := s.txShift / 2, txCount := s.txCount - 1, result := r }) hmodel (by omega)
      hpred (Nat.lt_of_le_of_lt (Nat.div_le_self _ _) hrange) (frame_left_shift (by omega) hm hleft)
    rw [drain_succ (txnYieldsTheLowestBit s hmodel hpos hrange), hrest, List.range'_succ, List.map_cons, ← hbit, hstart, bitTaken,
      List.cons_append]
    simp only [decide_eq_true_eq]

/-- The `n` low bits of a byte, bit `i` weighing 2^i, spell its value modulo 2^n (R8). -/
theorem sum_lowBits (c : Byte) (n : Nat) :
    ((List.range n).map fun i => (c.getLsbD i).toNat * 2 ^ i).sum = c.toNat % 2 ^ n := by
  induction n with
  | zero => simp [Nat.mod_one]
  | succ n ih =>
    have hbit : (c.getLsbD n).toNat = c.toNat / 2 ^ n % 2 := Nat.toNat_testBit c.toNat n
    rw [List.range_succ, List.map_append, List.sum_append, ih, List.map_singleton, List.sum_singleton, hbit, Nat.mod_pow_succ,
      Nat.mul_comm]

/-- R147: a byte with bit 7 clear is the sum of its seven data bits. -/
theorem sum_dataBits (c : Byte) (h : c.getLsbD 7 = false) :
    ((List.range 7).map fun i => (c.getLsbD i).toNat * 2 ^ i).sum = c.toNat := by
  have hwhole := sum_lowBits c 8
  rw [List.range_succ, List.map_append, List.sum_append, List.map_singleton, h, Nat.mod_eq_of_lt c.isLt] at hwhole
  simpa using hwhole

/-- Settles O28: the frame is drained bit by bit from the register TXB loads. -/
theorem drainedFrameIsTheCharacter : Obligations.DrainedFrameIsTheCharacter := by
  intro s c hmodel
  refine ⟨⟨txBegin c s, exec_txb_transmitterUnit hmodel c, ?_⟩, sum_dataBits c⟩
  have hbit : ∀ k, k < 9 → (frameWord c).toNat.testBit k = if k = 0 then false else if k ≤ 7 then c.getLsbD (k - 1) else true :=
    fun k hk => frameWord_getLsbD c hk
  rw [drain_frame (s := txBegin c s) (m := 9) (f := (frameWord c).toNat) hmodel (Nat.le_refl 9) rfl (shiftLoad_lt _ c)
    (shiftLoad_mod _ (nine_le_txRegWidth s.cfg) c)]
  simp [List.range'_succ, hbit, bitTaken]

end Sys2Proof.Machine
end

section
/-! PROOFS. The invariants of R34 and those that make them inductive, one lemma per effect of an event (`exec_next_cases`), and every step
as one of these effects. -/

namespace Sys2Proof.Machine

/-! ### The NUL of a finalised pass -/

/-- R51, R115: the tail of a finalisation ends with a NUL at an index from 9 to 13. -/
theorem finalisePass_terminated (x : Snapshot) (s : State) :
    ∃ k : BufIdx, 9 ≤ k.val ∧ k.val ≤ 13 ∧ (finalisePass x s).readBuf k = charNUL := by
  have hrange : ∀ a b hasDp : Bool, 9 ≤ tailStart hasDp + ((unitSuffix (unitOf a b hasDp)).length + 2) ∧
      tailStart hasDp + ((unitSuffix (unitOf a b hasDp)).length + 2) ≤ 13 := by decide
  obtain ⟨hlow, hhigh⟩ := hrange x.modeA x.modeB (s.dp != 0)
  refine ⟨⟨_, Nat.lt_of_le_of_lt hhigh (by decide)⟩, hlow, hhigh, finalisePass_readBuf_tail rfl ?_⟩
  simp [finalTail, readingTail]

/-! ### Outside the transmit phase -/

theorem recordedDp_le_six {n dp : BitVec 3} (hn : n ≤ 6) (hdp : dp.toNat ≤ 6) (dec : Bool) :
    (recordedDp n dec dp).toNat ≤ 6 := by
  cases dec
  · exact hdp
  · exact hn

/-- A record lies below index 8, so the NUL of a finalised pass stays (R113, R164). -/
theorem recordDigit_terminated {n : BitVec 3} {x : Snapshot} {s : State} (h1 : 1 ≤ n) (h6 : n ≤ 6)
    (h : ∃ k : BufIdx, 9 ≤ k.val ∧ k.val ≤ 13 ∧ s.readBuf k = charNUL) :
    ∃ k : BufIdx, 9 ≤ k.val ∧ k.val ≤ 13 ∧ (recordDigit n x s).readBuf k = charNUL := by
  obtain ⟨k, hlow, hhigh, hnul⟩ := h
  refine ⟨k, hlow, hhigh, ?_⟩
  rw [← hnul]
  by_contra hne
  have hrange := recordDigit_changed_range h1 h6 hne
  omega

/-- The decoder's step on one snapshot, where no transmission goes on. -/
theorem blockInv_decoderStep {x : Snapshot} {s : State} (h : BlockInv s) (hphase : s.phase ≠ .transmitting) :
    BlockInv (decoderStep x s) := by
  have hwf := decoderStep_wf (x := x) h.bufWf
  rcases decoderStep_cases x s with ⟨-, -, e⟩ | ⟨n, -, h1, h6, -, e⟩ | ⟨n, -, -, -, -, e⟩ | ⟨-, e⟩ | e <;> rw [e] at hwf ⊢
  · exact { h with dpRange := Nat.zero_le 6 }
  · exact { h with
      dpRange := recordedDp_le_six h6 h.dpRange x.dec
      bufWf := hwf
      length := fun ht => absurd ht hphase
      frameLeft := fun ht => absurd ht hphase
      terminated := fun hd => recordDigit_terminated h1 h6 (h.terminated hd) }
  · exact { h with }
  · exact { h with
      bufWf := hwf
      length := fun ht => absurd ht hphase
      frameLeft := fun ht => absurd ht hphase
      terminated := fun _ => finalisePass_terminated x s }
  · exact h

/-- Entering `Capturing` from a state that admits a wake (R161). -/
theorem blockInv_enterCapturing {s : State} (h : BlockInv s) (hmodel : s.model = .wholeBlock) (hphase : s.phase ≠ .transmitting) :
    BlockInv { s with phase := .capturing } :=
  { h with
    busIrq := iff_of_true (h.busIrq.mpr hphase) (by simp)
    timer := iff_of_false (fun ht => hphase (h.timer.mp ht)) (by simp)
    sending := fun ht => by cases ht
    unitIdle := fun hm => absurd hmodel hm
    resting := fun _ => h.resting hphase
    drained := fun hm _ => h.drained hm hphase
    length := fun ht => by cases ht
    frameLeft := fun ht => by cases ht
    lineIdle := fun ht => by cases ht }

theorem decoderReset_wf {s : State} (h : Memory.wf s.cfg.bufInit s.buf) : Memory.wf s.cfg.bufInit (decoderReset s).buf := by
  rcases decoderReset_buf_cases s with e | e <;> rw [e]
  · exact Memory.nil_wf _
  · exact h

/-- The decoder reset, where no transmission goes on (R117). -/
theorem blockInv_decoderReset {s : State} (h : BlockInv s) (hphase : s.phase ≠ .transmitting) : BlockInv (decoderReset s) :=
  { h with
    dpRange := Nat.zero_le 6
    bufWf := decoderReset_wf h.bufWf
    length := fun ht => absurd ht hphase
    frameLeft := fun ht => absurd ht hphase
    terminated := fun hd => by cases hd }

/-- `finish()` with the line idle and no bit left (R165). -/
theorem blockInv_finishTransmit {s : State} (h : BlockInv s) (htxd : s.txd = true)
    (hcount : s.txCount = 0) : BlockInv (finishTransmit s) :=
  { h with
    busIrq := iff_of_true rfl (by simp)
    timer := iff_of_false (by simp) (by simp)
    dpRange := Nat.zero_le 6
    sending := fun ht => by cases ht
    bufWf := decoderReset_wf h.bufWf
    unitIdle := fun _ => rfl
    resting := fun _ => ⟨rfl, rfl, htxd⟩
    drained := fun _ _ => hcount
    length := fun ht => by cases ht
    frameLeft := fun ht => by cases ht
    lineIdle := fun ht => by cases ht
    terminated := fun hd => by cases hd }

/-- SRST gives every field its reset value (R221). -/
theorem blockInv_systemReset (s : State) : BlockInv (systemReset s) where
  busIrq := iff_of_true rfl (by simp)
  timer := iff_of_false (by simp) (by simp)
  dpRange := Nat.zero_le 6
  sending ht := by cases ht
  countRange := Nat.zero_le 9
  shiftRange := Nat.two_pow_pos _
  bufWf := Memory.nil_wf _
  unitIdle _ := rfl
  resting _ := ⟨rfl, rfl, rfl⟩
  drained _ _ := rfl
  length ht := by cases ht
  frameLeft ht := by cases ht
  lineIdle ht := by cases ht
  terminated hd := by cases hd

/-! ### The transmitter unit -/

/-- R81, R161: in a unit no transmission goes on. -/
theorem BlockInv.not_transmitting_of_unit {s : State} (h : BlockInv s) (hmodel : s.model ≠ .wholeBlock) :
    s.phase ≠ .transmitting := fun ht => by cases ht.symm.trans (h.unitIdle hmodel)

/-- TXB in the transmitter unit, which never leaves `Idle` (R140). -/
theorem blockInv_txBegin {s : State} (h : BlockInv s) (hmodel : s.model ≠ .wholeBlock) (c : Byte) : BlockInv (txBegin c s) :=
  have hphase := h.not_transmitting_of_unit hmodel
  { h with
    countRange := Nat.le_refl 9
    shiftRange := shiftLoad_lt _ c
    drained := fun hm => absurd hm hmodel
    frameLeft := fun ht => absurd ht hphase
    lineIdle := fun ht => absurd ht hphase }

theorem txAdvance_countRange {s : State} (h : s.txCount.toNat ≤ 9) : (txAdvance s).txCount.toNat ≤ 9 := by
  by_cases hcount : s.txCount = 0
  · rw [txAdvance_zero s hcount]
    exact h
  · rw [txAdvance_pos s hcount]
    show (s.txCount - 1).toNat ≤ 9
    bv_omega

/-- TXN in the transmitter unit (R142, R143). -/
theorem blockInv_txn {s : State} (h : BlockInv s) (hmodel : s.model ≠ .wholeBlock) :
    BlockInv { txAdvance s with result := some (txResult s) } := by
  have hphase := h.not_transmitting_of_unit hmodel
  have hcount := txAdvance_countRange h.countRange
  have hshift := txAdvance_shiftRange h.shiftRange
  by_cases hc : s.txCount = 0
  · rw [txAdvance_zero s hc]
    exact { h with }
  · rw [txAdvance_pos s hc] at hcount hshift ⊢
    exact { h with
      countRange := hcount
      shiftRange := hshift
      drained := fun hm => absurd hm hmodel
      frameLeft := fun ht => absurd ht hphase
      lineIdle := fun ht => absurd ht hphase }

/-! ### The transmit phase -/

/-- The nine low bits of a loaded register are the whole frame (R141). -/
theorem shiftLoad_frameLeft (cfg : Config) (c : Byte) :
    (shiftLoad cfg.txRegWidth c).toNat % 2 ^ (9#4).toNat = (frameWord c).toNat >>> (9 - (9#4).toNat) :=
  shiftLoad_mod _ (nine_le_txRegWidth cfg) c

theorem toNat_ofNat_txLength (s : State) : (BitVec.ofNat 4 (txLength s)).toNat = txLength s := by
  have := txLength_le s
  rw [BitVec.toNat_ofNat]
  omega

/-- The start of a transmission of at least one character (R163, R166). -/
theorem blockInv_startTransmit {s : State} (h : BlockInv s) (hmodel : s.model = .wholeBlock) (hphase : s.phase ≠ .transmitting)
    (hlen : txLength s ≠ 0) : BlockInv (startTransmit (txLength s) { s with busIrqEn := false }) :=
  { h with
    busIrq := iff_of_false (by simp) (by simp)
    timer := iff_of_true rfl rfl
    sending := fun _ => by
      show 0 < (BitVec.ofNat 4 (txLength s)).toNat
      rw [toNat_ofNat_txLength]
      omega
    countRange := Nat.le_refl 9
    shiftRange := shiftLoad_lt _ _
    unitIdle := fun hm => absurd hmodel hm
    resting := fun ht => absurd rfl ht
    drained := fun _ ht => absurd rfl ht
    length := fun _ => toNat_ofNat_txLength s
    frameLeft := fun _ => shiftLoad_frameLeft s.cfg _
    lineIdle := fun _ _ => (h.resting hphase).2.2 }

/-- The load of the next character (R169). -/
theorem blockInv_loadNext {s : State} {next : BufIdx} (h : BlockInv s) (hphase : s.phase = .transmitting)
    (hnext : next.val < s.txLen.toNat) : BlockInv (loadNext next s) :=
  have htoNat : (BitVec.ofNat 4 next.val).toNat = next.val := by
    rw [BitVec.toNat_ofNat]
    omega
  { h with
    sending := fun _ => htoNat.symm ▸ hnext
    countRange := Nat.le_refl 9
    shiftRange := shiftLoad_lt _ _
    resting := fun ht => absurd hphase ht
    drained := fun _ ht => absurd hphase ht
    frameLeft := fun _ => by
      show _ = (frameWord (Memory.get s.cfg.bufInit (BitVec.ofNat 4 next.val).toNat s.buf)).toNat >>> _
      rw [htoNat]
      exact shiftLoad_frameLeft s.cfg _
    lineIdle := fun _ _ => rfl }

/-- The bit a tick emits is the frame's next one (R141, R168). -/
theorem emitBit_txd_eq {s : State} (h : BlockInv s) (hphase : s.phase = .transmitting) (hcount : s.txCount ≠ 0) :
    (emitBit s).txd = (frameWord (Memory.get s.cfg.bufInit s.ci.toNat s.buf)).getLsbD (9 - s.txCount.toNat) := by
  have hpos : 0 < s.txCount.toNat := by bv_omega
  rw [emitBit_txd, txResult_bit hcount, frame_low_bit hpos (h.frameLeft hphase)]
  rfl

/-- One bit emitted (R168). -/
theorem blockInv_emitBit {s : State} (h : BlockInv s) (hphase : s.phase = .transmitting) (hcount : s.txCount ≠ 0) :
    BlockInv (emitBit s) := by
  have hpos : 0 < s.txCount.toNat := by bv_omega
  have hpred : (s.txCount - 1).toNat = s.txCount.toNat - 1 := by bv_omega
  have hrange := h.countRange
  have htxd := emitBit_txd_eq h hphase hcount
  have hleft := frame_left_shift hpos hrange (h.frameLeft hphase)
  rw [emitBit, txAdvance_pos_eq hcount h.shiftRange] at htxd ⊢
  exact { h with
    countRange := by
      show (s.txCount - 1).toNat ≤ 9
      omega
    shiftRange := Nat.lt_of_le_of_lt (Nat.div_le_self _ _) h.shiftRange
    resting := fun ht => absurd hphase ht
    drained := fun _ ht => absurd hphase ht
    frameLeft := fun _ => by
      show s.txShift / 2 % 2 ^ (s.txCount - 1).toNat = _ >>> (9 - (s.txCount - 1).toNat)
      rw [hpred]
      exact hleft
    lineIdle := fun _ hend => by
      have hstop : s.txCount.toNat = 1 := by
        have : s.txCount - 1 = 0 ∨ s.txCount - 1 = 9 := hend
        bv_omega
      refine htxd.trans ?_
      rw [hstop, frameWord_getLsbD _ (by decide)]
      rfl }

/-! ### Events and steps -/

theorem blockInv_fallingEdge {s : State} (h : BlockInv s) (hmodel : s.model = .wholeBlock) (hphase : s.phase = .capturing) :
    BlockInv (fallingEdge s) := by
  have hnot : s.phase ≠ .transmitting := by simp [hphase]
  rcases fallingEdge_cases s with ⟨-, e⟩ | ⟨hlen, e⟩ <;> rw [e]
  · exact (blockInv_finishTransmit h (h.resting hnot).2.2 (h.drained hmodel hnot) : BlockInv (finishTransmit s))
  · exact blockInv_startTransmit h hmodel hnot hlen

theorem blockInv_lastIdle {s : State} (h : BlockInv s) (hphase : s.phase = .transmitting) (hcount : s.txCount = 0) :
    BlockInv (lastIdle s) := by
  have htxd := h.lineIdle hphase (.inl hcount)
  have hsame : lastIdle s = finishTransmit s := by rw [lastIdle, ← htxd]
  rw [hsame]
  exact blockInv_finishTransmit h htxd hcount

/-- An event that answers a next state keeps the invariants. -/
theorem blockInv_exec {i : Instr} {s t : State} (h : BlockInv s) (he : exec i s = .next t) : BlockInv t := by
  have hunit {m : BlockModel} (hm : (s.model == m) = true) (hne : m ≠ .wholeBlock) : s.model ≠ .wholeBlock :=
    beq_iff_eq.mp hm ▸ hne
  have hwake {mup : Bool} {x : Snapshot} (ha : admitted s (.wake mup x) = true) : s.model = .wholeBlock :=
    beq_iff_eq.mp (Bool.and_eq_true_iff.mp ha).1
  have htick (ha : admitted s .tick = true) : s.phase = .transmitting := h.timer.mp (Bool.and_eq_true_iff.mp ha).2
  rcases exec_next_cases he with ⟨-, rfl⟩ | ⟨ha, ⟨x, rfl, rfl⟩ | ⟨rfl, rfl⟩ | ⟨c, rfl, rfl⟩ | ⟨rfl, rfl⟩ | ⟨x, rfl, rfl⟩ |
    ⟨x, -, -, rfl⟩ | ⟨x, rfl, hphase, rfl⟩ | ⟨rfl, hcount, rfl⟩ | ⟨n, rfl, -, -, hlt, rfl⟩ | ⟨rfl, hcount, -, rfl⟩ | ⟨-, rfl⟩⟩
  · exact { h with }
  · exact blockInv_decoderStep h (h.not_transmitting_of_unit (hunit ha (by decide)))
  · exact blockInv_decoderReset h (h.not_transmitting_of_unit (hunit ha (by decide)))
  · exact blockInv_txBegin h (hunit ha (by decide)) c
  · exact blockInv_txn h (hunit ha (by decide))
  · exact blockInv_decoderStep (blockInv_enterCapturing h (hwake ha) (h.not_transmitting_of_wake ha)) (by simp)
  · exact h
  · exact blockInv_fallingEdge h (hwake ha) hphase
  · exact blockInv_emitBit h (htick ha) hcount
  · exact blockInv_loadNext h (htick ha) hlt
  · exact blockInv_lastIdle h (htick ha) hcount
  · exact blockInv_systemReset s

/-- Settles O42: a wait changes nothing, a refusal and taking an offer change no field an invariant speaks of, and an event keeps them
by `blockInv_exec`. -/
theorem everyStepKeepsTheInvariants : Obligations.EveryStepKeepsTheInvariants := by
  intro s t h hstep
  rcases step_cases s with ⟨-, e⟩ | ⟨o, rest, -, -, e⟩ | ⟨o, rest, i, -, -, e⟩ <;> rw [e] at hstep
  · exact next_inj hstep ▸ h
  · exact next_inj hstep ▸ { h with }
  · exact blockInv_exec (h.takeOffer rest) hstep

/-! ### Reset and launch -/

/-- R235, R220: a clean launch of the whole block holds every field of R33 at its reset value. -/
theorem eq_systemReset_of_cleanLaunch {s : State} (h : cleanLaunch s) (hmodel : s.model = .wholeBlock) : s = systemReset s := by
  obtain ⟨-, -, hlaunch⟩ := h
  rw [hmodel] at hlaunch
  obtain ⟨⟨hstate, hdp, hdone, hbuf⟩, ⟨hshift, hcount⟩, hphase, hirq, htimer, hci, hlen, htxd⟩ := hlaunch
  cases s
  simp_all only [systemReset]

/-- Settles O1: the state after reset is a system reset's. -/
theorem resetMeetsTheInvariants : Obligations.ResetMeetsTheInvariants := blockInv_systemReset State.reset

/-- Settles O51: the whole block's fields are those of a system reset, and a unit's own fields are at their reset values. -/
theorem cleanLaunchMeetsTheInvariants : Obligations.CleanLaunchMeetsTheInvariants := by
  intro s h
  refine ⟨h.1, fun hmodel => eq_systemReset_of_cleanLaunch h hmodel ▸ blockInv_systemReset s, fun hmodel => ?_, fun hmodel => ?_⟩
  · obtain ⟨-, -, hlaunch⟩ := h
    rw [hmodel] at hlaunch
    obtain ⟨-, hdp, hdone, hbuf⟩ := hlaunch
    exact ⟨by rw [hdp]; decide, hdone, hbuf ▸ Memory.nil_wf _⟩
  · obtain ⟨-, -, hlaunch⟩ := h
    rw [hmodel] at hlaunch
    obtain ⟨hshift, hcount⟩ := hlaunch
    exact ⟨by rw [hcount]; decide, hshift ▸ Nat.two_pow_pos _⟩

end Sys2Proof.Machine
end

section
/-! PROOFS. The mode scheduler, resets and refusals: the length sent (R164), the falling edge (R163), the end of a transmission (R170),
what is refused (R192, R193) and what no event writes (R33), and the frames of WAKE and TICK. -/

namespace Sys2Proof.Machine

/-! ### The length sent -/

/-- Settles O33: k is the index the scan for a NUL finds. -/
theorem lengthSentFollowsTheFirstNul : Obligations.LengthSentFollowsTheFirstNul := by
  intro s
  obtain ⟨hle, hbelow, hat⟩ := firstNul_spec s
  exact ⟨firstNul s, hle, hbelow, hat, txLength_le s, rfl⟩

/-- Settles O34: the NUL of a finalised pass stands below index 14, so the scan stops there. -/
theorem finalisedReadingHasAtMost14Characters : Obligations.FinalisedReadingHasAtMost14Characters := by
  intro s h hdone
  obtain ⟨k, -, hk, hnul⟩ := h.terminated hdone
  have hfirst := firstNul_le hnul
  unfold txLength
  dsimp only
  split_ifs <;> omega

/-! ### The wake with MUP low, and the last tick -/

theorem wakeEffect_low_capturing {s : State} (hphase : s.phase = .capturing) (x : Snapshot) :
    wakeEffect false x s = .next (fallingEdge s) := by simp [wakeEffect, hphase]

/-- Settles O30: the whole block admits the wake, which has no effect in `Idle`. -/
theorem wakeLowInIdleDoesNothing : Obligations.WakeLowInIdleDoesNothing := by
  intro s x hmodel hirq hphase
  rw [exec_wake_wholeBlock hmodel hirq]
  simp [wakeEffect, hphase]

theorem fallingEdge_send {s : State} (hlen : txLength s ≠ 0) :
    fallingEdge s = startTransmit (txLength s) { s with busIrqEn := false } := if_neg hlen

theorem fallingEdge_nothing {s : State} (hlen : txLength s = 0) :
    fallingEdge s = finishTransmit { s with busIrqEn := false } := if_pos hlen

/-- Settles O31: the falling edge is `startTransmit`, which loads the register as `txBegin` does. -/
theorem fallingEdgeStartsATransmission : Obligations.FallingEdgeStartsATransmission := by
  intro s x hmodel hirq hphase hlen
  refine ⟨startTransmit (txLength s) { s with busIrqEn := false }, _, ?_, exec_txb_transmitterUnit rfl _, toNat_ofNat_txLength s, rfl⟩
  rw [exec_wake_wholeBlock hmodel hirq, wakeEffect_low_capturing hphase, fallingEdge_send hlen]

/-- Settles O32: the falling edge is `finishTransmit`, whose decoder reset says what becomes of the buffer. -/
theorem fallingEdgeWithNothingToSend : Obligations.FallingEdgeWithNothingToSend := by
  intro s x hmodel hirq hphase hlen
  refine ⟨finishTransmit { s with busIrqEn := false }, ?_, decoderReset_readBuf s, rfl⟩
  rw [exec_wake_wholeBlock hmodel hirq, wakeEffect_low_capturing hphase, fallingEdge_nothing hlen]

theorem tickEffect_last {s : State} (hcount : s.txCount = 0) (hlast : s.ci.toNat + 1 = s.txLen.toNat) :
    tickEffect s = .next (lastIdle s) := by
  rw [tickEffect, if_neg (not_not.mpr hcount), dif_neg (by omega), if_pos hlast]

/-- Settles O37: the tick is `lastIdle`, whose decoder reset says what becomes of the buffer. -/
theorem tickFinishesTheTransmission : Obligations.TickFinishesTheTransmission := by
  intro s hmodel htimer hcount hlast
  refine ⟨lastIdle s, ?_, decoderReset_readBuf s, rfl⟩
  rw [exec_tick_wholeBlock hmodel htimer, tickEffect_last hcount hlast]

/-! ### Reset, refusal, admission -/

/-- Settles O2: each field by computation, each byte as one of an empty list of cells. -/
theorem resetFieldValues : Obligations.ResetFieldValues :=
  ⟨rfl, rfl, rfl, fun i => readBuf_of_buf_nil rfl i, rfl, rfl, rfl, rfl, rfl, rfl, rfl, rfl, rfl⟩

/-- Settles O38: every model accepts SRST. -/
theorem srstResetsEveryField : Obligations.SrstResetsEveryField := fun s =>
  ⟨systemReset s, exec_admitted rfl, fun i => readBuf_of_buf_nil rfl i, rfl⟩

/-- Settles O39: no model accepts the reserved event. -/
theorem reservedEventIsRefused : Obligations.ReservedEventIsRefused := fun _ _ => exec_not_admitted rfl

/-- Settles O40: each event is one that `admitted` turns away. -/
theorem eventNotAdmittedIsRefused : Obligations.EventNotAdmittedIsRefused := by
  intro s x c mup
  refine ⟨fun h => ⟨?_, ?_⟩, fun h => ⟨?_, ?_⟩, fun h => ?_, fun h => ?_⟩
  · exact exec_not_admitted (by simp [admitted, accepts, h])
  · exact exec_not_admitted (by simp [admitted, accepts, h])
  · exact exec_not_admitted (by simp [admitted, accepts, h])
  · exact exec_not_admitted (by simp [admitted, accepts, h])
  · exact exec_not_admitted (by rcases h with h | h <;> simp [admitted, accepts, wakeAdmitted, h])
  · exact exec_not_admitted (by rcases h with h | h <;> simp [admitted, accepts, tickAdmitted, h])

/-- What no effect of an event writes: the parameters, the model, the offers and `refused` (logs 1, 3, 4; R33). -/
def KeepsOwnFields (s t : State) : Prop :=
  t.cfg = s.cfg ∧ t.model = s.model ∧ t.events = s.events ∧ t.refused = s.refused

theorem fallingEdge_keepsOwnFields (s : State) : KeepsOwnFields s (fallingEdge s) := by
  rcases fallingEdge_cases s with ⟨-, e⟩ | ⟨-, e⟩ <;> rw [e]
  · exact ⟨rfl, rfl, rfl, rfl⟩
  · exact ⟨rfl, rfl, rfl, rfl⟩

/-- An event that is not admitted is refused (R192); one that is keeps what no effect writes. -/
theorem exec_next_keeps {i : Instr} {s t : State} (he : exec i s = .next t) :
    (admitted s i = false ∧ t = refuseEvent s) ∨ (admitted s i = true ∧ KeepsOwnFields s t) := by
  rcases exec_next_cases he with h | ⟨ha, h⟩
  · exact .inl h
  · refine .inr ⟨ha, ?_⟩
    rcases h with ⟨x, -, rfl⟩ | ⟨-, rfl⟩ | ⟨c, -, rfl⟩ | ⟨-, rfl⟩ | ⟨x, -, rfl⟩ | ⟨x, -, -, rfl⟩ | ⟨x, -, -, rfl⟩ | ⟨-, -, rfl⟩ |
      ⟨n, -, -, -, -, rfl⟩ | ⟨-, -, -, rfl⟩ | ⟨-, rfl⟩
    · simp [KeepsOwnFields]
    · exact ⟨rfl, rfl, rfl, rfl⟩
    · exact ⟨rfl, rfl, rfl, rfl⟩
    · simp [KeepsOwnFields]
    · simp [KeepsOwnFields, captureSample]
    · exact ⟨rfl, rfl, rfl, rfl⟩
    · exact fallingEdge_keepsOwnFields s
    · simp [KeepsOwnFields]
    · exact ⟨rfl, rfl, rfl, rfl⟩
    · exact ⟨rfl, rfl, rfl, rfl⟩
    · exact ⟨rfl, rfl, rfl, rfl⟩

/-- A refusal leaves every field of R33 but `refused` (R192). -/
theorem refuseEvent_takeOffer_frame (s : State) (rest : List Offer) :
    sameDecoder s (refuseEvent (takeOffer rest s)) ∧ sameTransmitter s (refuseEvent (takeOffer rest s)) ∧
    sameScheduler s (refuseEvent (takeOffer rest s)) :=
  ⟨sameDecoder_of_eq rfl rfl rfl rfl rfl, ⟨rfl, rfl⟩, rfl, rfl, rfl, rfl, rfl, rfl⟩

/-- Settles O44: a step waits, refuses, or processes an admitted event, which keeps `refused`. -/
theorem refusedIsStickyAndChangesNothingElse : Obligations.RefusedIsStickyAndChangesNothingElse := by
  intro s t hstep
  have hrefused : ∀ o rest, s.events = o :: rest → t = refuseEvent (takeOffer rest s) →
      t.cfg = s.cfg ∧ t.model = s.model ∧ (s.refused = true → t.refused = true) ∧
      (s.refused = false → t.refused = true →
        sameDecoder s t ∧ sameTransmitter s t ∧ sameScheduler s t ∧ t.events = s.events.tail ∧ t.result = none) := by
    rintro o rest hevents rfl
    obtain ⟨hdec, htx, hsched⟩ := refuseEvent_takeOffer_frame s rest
    exact ⟨rfl, rfl, fun _ => rfl, fun _ _ => ⟨hdec, htx, hsched, by rw [hevents]; rfl, rfl⟩⟩
  rcases step_cases s with ⟨-, e⟩ | ⟨o, rest, hevents, -, e⟩ | ⟨o, rest, i, hevents, -, e⟩ <;> rw [e] at hstep
  · obtain rfl := next_inj hstep
    exact ⟨rfl, rfl, id, fun hf ht => by simp [hf] at ht⟩
  · exact hrefused o rest hevents (next_inj hstep).symm
  · rcases exec_next_keeps hstep with ⟨-, ht⟩ | ⟨-, hcfg, hmodel, -, hkept⟩
    · exact hrefused o rest hevents ht
    · have hkept : t.refused = s.refused := hkept
      exact ⟨hcfg, hmodel, hkept.trans, fun hf ht => by simp [hkept, hf] at ht⟩

/-- Under the invariants an admitted event has a next state with `refused` as before. -/
theorem exec_admitted_next {s : State} {i : Instr} (h : BlockInv s) (ha : admitted s i = true) :
    ∃ t, exec i s = .next t ∧ t.refused = s.refused := by
  obtain ⟨t, he⟩ := exec_next h i
  rcases exec_next_keeps he with ⟨hno, -⟩ | ⟨-, -, -, -, hkept⟩
  · exact absurd (ha.symm.trans hno) (by decide)
  · exact ⟨t, he, hkept⟩

/-- Settles O41: R34 (a) makes the two status bits opposite, and each admits its event. -/
theorem exactlyOneOfWakeAndTickIsAdmitted : Obligations.ExactlyOneOfWakeAndTickIsAdmitted := by
  intro s mup x h hmodel hrefused
  obtain ⟨-, -, hwakeOff, htickOff⟩ := eventNotAdmittedIsRefused s x 0 mup
  constructor
  · intro hphase
    have hirq := h.busIrq.mpr hphase
    have htimer : s.timerRun = false := Bool.eq_false_iff.mpr fun ht => hphase (h.timer.mp ht)
    have ha : admitted s (.wake mup x) = true := by simp [admitted, accepts, wakeAdmitted, hmodel, hirq]
    obtain ⟨t, he, hkept⟩ := exec_admitted_next h ha
    exact ⟨⟨t, he, hkept.trans hrefused⟩, htickOff (.inr htimer)⟩
  · intro hphase
    have htimer := h.timer.mpr hphase
    have hirq : s.busIrqEn = false := Bool.eq_false_iff.mpr fun hi => h.busIrq.mp hi hphase
    have ha : admitted s .tick = true := by simp [admitted, accepts, tickAdmitted, hmodel, htimer]
    obtain ⟨t, he, hkept⟩ := exec_admitted_next h ha
    exact ⟨hwakeOff (.inr hirq), t, he, hkept.trans hrefused⟩

/-! ### Frames of WAKE and TICK -/

theorem exec_next_refused_or_effect {i : Instr} {s t : State} (he : exec i s = .next t) :
    t = refuseEvent s ∨ effectOf i s = .next t := by
  cases ha : admitted s i with
  | false => exact .inl (next_inj ((exec_not_admitted ha).symm.trans he)).symm
  | true => exact .inr ((exec_admitted ha).symm.trans he)

theorem exec_wake_high_next {s t : State} {x : Snapshot} (he : exec (.wake true x) s = .next t) :
    t = refuseEvent s ∨ t = captureSample x s := exec_next_of_effect rfl he

/-- What a WAKE with MUP low can have done. -/
theorem exec_wake_low_next {s t : State} {x : Snapshot} (he : exec (.wake false x) s = .next t) :
    t = refuseEvent s ∨ t = s ∨ t = fallingEdge s := by
  rcases exec_next_refused_or_effect he with h | heffect
  · exact .inl h
  · rcases wakeEffect_cases false x s with ⟨hmup, -⟩ | ⟨-, -, e⟩ | ⟨-, -, e⟩ | ⟨-, -, e⟩
    · cases hmup
    · exact .inr (.inl (next_inj (heffect.symm.trans e)))
    · exact .inr (.inr (next_inj (heffect.symm.trans e)))
    · cases heffect.symm.trans e

/-- What a TICK can have done. -/
theorem exec_tick_next {s t : State} (he : exec .tick s = .next t) :
    t = refuseEvent s ∨ t = emitBit s ∨ (∃ n, t = loadNext n s) ∨
    (s.txCount = 0 ∧ s.ci.toNat + 1 = s.txLen.toNat ∧ t = lastIdle s) := by
  rcases exec_next_refused_or_effect he with h | heffect
  · exact .inl h
  · rcases tickEffect_cases s with ⟨-, e⟩ | ⟨n, -, -, -, e⟩ | ⟨hcount, hlast, e⟩ | ⟨-, -, e⟩
    · exact .inr (.inl (next_inj (heffect.symm.trans e)))
    · exact .inr (.inr (.inl ⟨n, next_inj (heffect.symm.trans e)⟩))
    · exact .inr (.inr (.inr ⟨hcount, hlast, next_inj (heffect.symm.trans e)⟩))
    · cases heffect.symm.trans e

theorem fallingEdge_frame (s : State) :
    (fallingEdge s).txd = s.txd ∧ (fallingEdge s).events = s.events ∧ (fallingEdge s).result = s.result := by
  rcases fallingEdge_cases s with ⟨-, e⟩ | ⟨-, e⟩ <;> rw [e]
  · exact ⟨rfl, rfl, rfl⟩
  · exact ⟨rfl, rfl, rfl⟩

/-- A WAKE moves neither the pin nor the model's own ports (R161 to R163). -/
theorem wake_frame {s t : State} {mup : Bool} {x : Snapshot} (he : exec (.wake mup x) s = .next t) :
    t.txd = s.txd ∧ t.events = s.events ∧ t.result = s.result := by
  cases mup with
  | true => rcases exec_wake_high_next he with rfl | rfl <;> simp [captureSample]
  | false =>
    rcases exec_wake_low_next he with rfl | rfl | rfl
    · exact ⟨rfl, rfl, rfl⟩
    · exact ⟨rfl, rfl, rfl⟩
    · exact fallingEdge_frame s

/-- A WAKE with MUP high writes the decoder and `phase` alone (R161). -/
theorem wake_high_frame {s t : State} {x : Snapshot} (he : exec (.wake true x) s = .next t) :
    sameTransmitter s t ∧ t.busIrqEn = s.busIrqEn ∧ t.timerRun = s.timerRun ∧ t.ci = s.ci ∧ t.txLen = s.txLen := by
  rcases exec_wake_high_next he with rfl | rfl <;> simp [sameTransmitter, captureSample]

/-- What a TICK leaves while bits or characters are left (R168, R169). -/
def KeepsWhileSending (s t : State) : Prop :=
  sameDecoder s t ∧ t.phase = s.phase ∧ t.busIrqEn = s.busIrqEn ∧ t.timerRun = s.timerRun ∧ t.txLen = s.txLen

theorem emitBit_keepsWhileSending (s : State) : KeepsWhileSending s (emitBit s) := by
  refine ⟨sameDecoder_of_eq ?_ ?_ ?_ ?_ ?_, ?_⟩ <;> simp

theorem loadNext_keepsWhileSending (n : BufIdx) (s : State) : KeepsWhileSending s (loadNext n s) :=
  ⟨sameDecoder_of_eq rfl rfl rfl rfl rfl, rfl, rfl, rfl, rfl⟩

/-- A TICK writes neither of the model's own ports, and the decoder only when it ends the transmission (R167). -/
theorem tick_frame {s t : State} (he : exec .tick s = .next t) :
    t.events = s.events ∧ t.result = s.result ∧ (s.txCount ≠ 0 ∨ s.ci.toNat + 1 < s.txLen.toNat → KeepsWhileSending s t) := by
  rcases exec_tick_next he with rfl | rfl | ⟨n, rfl⟩ | ⟨hcount, hlast, rfl⟩
  · exact ⟨rfl, rfl, fun _ => ⟨sameDecoder_of_eq rfl rfl rfl rfl rfl, rfl, rfl, rfl, rfl⟩⟩
  · exact ⟨emitBit_events s, emitBit_result s, fun _ => emitBit_keepsWhileSending s⟩
  · exact ⟨rfl, rfl, fun _ => loadNext_keepsWhileSending n s⟩
  · exact ⟨rfl, rfl, fun hleft => absurd hleft (by simp [hcount]; omega)⟩

/-- Settles O47: the three frames. -/
theorem wakeAndTickFrames : Obligations.WakeAndTickFrames := fun _ _ _ _ => ⟨wake_frame, wake_high_frame, tick_frame⟩

end Sys2Proof.Machine
end

section
/-! PROOFS. A transmission of the whole block: what it leaves alone (R63, R229), the ticks it takes (R176), and the bits it puts on the
line (R168 to R172). -/

namespace Sys2Proof.Machine

/-! ### The transmit phase -/

theorem BlockInv.wholeBlock_of_transmitting {s : State} (h : BlockInv s) (hphase : s.phase = .transmitting) :
    s.model = .wholeBlock := by
  by_contra hmodel
  exact h.not_transmitting_of_unit hmodel hphase

/-- What an event can have done in the transmit phase: only TICK and SRST are admitted (R81, R193, R34 (a)). -/
theorem exec_next_of_transmitting {i : Instr} {s t : State} (h : BlockInv s) (hphase : s.phase = .transmitting)
    (he : exec i s = .next t) :
    t = refuseEvent s ∨ t = emitBit s ∨ (∃ n, t = loadNext n s) ∨ t = lastIdle s ∨ t = systemReset s := by
  have hmodel := h.wholeBlock_of_transmitting hphase
  cases ha : admitted s i with
  | false => exact .inl (next_inj ((exec_not_admitted ha).symm.trans he)).symm
  | true =>
    cases i with
    | step x => simp [admitted, accepts, hmodel] at ha
    | drst => simp [admitted, accepts, hmodel] at ha
    | txb c => simp [admitted, accepts, hmodel] at ha
    | txn => simp [admitted, accepts, hmodel] at ha
    | reserved p => simp [admitted, accepts] at ha
    | wake mup x => exact absurd hphase (h.not_transmitting_of_wake ha)
    | tick =>
      rcases exec_tick_next he with e | e | e | ⟨-, -, e⟩
      · exact .inl e
      · exact .inr (.inl e)
      · exact .inr (.inr (.inl e))
      · exact .inr (.inr (.inr (.inl e)))
    | srst => exact .inr (.inr (.inr (.inr (next_inj ((exec_admitted ha).symm.trans he)).symm)))

/-- An event that leaves the block in the transmit phase writes neither the decoder nor the length. -/
theorem exec_frozen {i : Instr} {s t : State} (h : BlockInv s) (hphase : s.phase = .transmitting) (he : exec i s = .next t)
    (ht : t.phase = .transmitting) : sameDecoder s t ∧ t.txLen = s.txLen := by
  rcases exec_next_of_transmitting h hphase he with rfl | rfl | ⟨n, rfl⟩ | rfl | rfl
  · exact ⟨sameDecoder_of_eq rfl rfl rfl rfl rfl, rfl⟩
  · obtain ⟨hdec, -, -, -, hlen⟩ := emitBit_keepsWhileSending s
    exact ⟨hdec, hlen⟩
  · obtain ⟨hdec, -, -, -, hlen⟩ := loadNext_keepsWhileSending n s
    exact ⟨hdec, hlen⟩
  · cases ht
  · cases ht

/-- Settles O45: a wait and a refusal write no field of the decoder, and an event is `exec_frozen`'s. -/
theorem bufferIsFrozenWhileTransmitting : Obligations.BufferIsFrozenWhileTransmitting := by
  intro s t h hphase hstep ht
  rcases step_cases s with ⟨-, e⟩ | ⟨o, rest, -, -, e⟩ | ⟨o, rest, i, -, -, e⟩ <;> rw [e] at hstep
  · obtain rfl := next_inj hstep
    exact ⟨sameDecoder_of_eq rfl rfl rfl rfl rfl, rfl⟩
  · obtain rfl := next_inj hstep
    exact ⟨sameDecoder_of_eq rfl rfl rfl rfl rfl, rfl⟩
  · exact exec_frozen (s := takeOffer rest s) (h.takeOffer rest) hphase hstep ht

/-! ### Ticks -/

theorem ticksOwed_transmitting {s : State} (h : s.phase = .transmitting) :
    ticksOwed s = s.txCount.toNat + 1 + 10 * (s.txLen.toNat - (s.ci.toNat + 1)) := if_pos h

theorem ticksOwed_eq_zero_iff (s : State) : ticksOwed s = 0 ↔ s.phase ≠ .transmitting := by
  by_cases h : s.phase = .transmitting
  · rw [ticksOwed_transmitting h]
    exact iff_of_false (by omega) (not_not.mpr h)
  · exact iff_of_true (if_neg h) h

/-- What one TICK does in the transmit phase: the next bit, the next character, or the end (R167, R34 (c)). -/
theorem exec_tick_transmitting {s : State} (h : BlockInv s) (hphase : s.phase = .transmitting) :
    (s.txCount ≠ 0 ∧ exec .tick s = .next (emitBit s)) ∨
    (∃ n : BufIdx, s.txCount = 0 ∧ n.val = s.ci.toNat + 1 ∧ n.val < s.txLen.toNat ∧ exec .tick s = .next (loadNext n s)) ∨
    (s.txCount = 0 ∧ s.ci.toNat + 1 = s.txLen.toNat ∧ exec .tick s = .next (lastIdle s)) := by
  rw [exec_tick_wholeBlock (h.wholeBlock_of_transmitting hphase) (h.timer.mpr hphase)]
  rcases tickEffect_cases s with hcase | hcase | hcase | ⟨-, hpast, -⟩
  · exact .inl hcase
  · exact .inr (.inl hcase)
  · exact .inr (.inr hcase)
  · have := h.sending hphase
    omega

theorem ticksOwed_emitBit {s : State} (hphase : s.phase = .transmitting) (hcount : s.txCount ≠ 0) :
    ticksOwed (emitBit s) + 1 = ticksOwed s := by
  have hpred : (txAdvance s).txCount.toNat + 1 = s.txCount.toNat := by
    rw [txAdvance_pos s hcount]
    show (s.txCount - 1).toNat + 1 = s.txCount.toNat
    bv_omega
  rw [ticksOwed_transmitting hphase, ticksOwed_transmitting ((emitBit_phase s).trans hphase), emitBit_txCount, emitBit_txLen, emitBit_ci]
  omega

theorem ticksOwed_loadNext {s : State} {n : BufIdx} (hphase : s.phase = .transmitting) (hcount : s.txCount = 0)
    (hn : n.val = s.ci.toNat + 1) (hlt : n.val < s.txLen.toNat) : ticksOwed (loadNext n s) + 1 = ticksOwed s := by
  have hci : (BitVec.ofNat 4 n.val).toNat = n.val := by
    rw [BitVec.toNat_ofNat]
    omega
  rw [ticksOwed_transmitting hphase, ticksOwed_transmitting ((loadNext_phase s n).trans hphase), loadNext_txCount, loadNext_txLen,
    loadNext_ci, hci, hcount]
  show 9 + 1 + _ + 1 = 0 + 1 + _
  omega

theorem ticksOwed_lastIdle {s : State} (hphase : s.phase = .transmitting) (hcount : s.txCount = 0)
    (hlast : s.ci.toNat + 1 = s.txLen.toNat) : ticksOwed (lastIdle s) + 1 = ticksOwed s := by
  have hdone : ticksOwed (lastIdle s) = 0 := (ticksOwed_eq_zero_iff _).mpr (by simp)
  rw [hdone, ticksOwed_transmitting hphase, hcount, hlast]
  simp

/-- Settles O48: each of the three things a TICK can do pays one tick, and only the last leaves the transmit phase. -/
theorem eachTickPaysOneTickOwed : Obligations.EachTickPaysOneTickOwed := by
  intro s h _ hphase
  rcases exec_tick_transmitting h hphase with ⟨hcount, e⟩ | ⟨n, hcount, hn, hlt, e⟩ | ⟨hcount, hlast, e⟩
  · have ht : (emitBit s).phase = .transmitting := (emitBit_phase s).trans hphase
    exact ⟨_, e, emitBit_refused s, ticksOwed_emitBit hphase hcount,
      iff_of_false (by rw [ht]; decide) (mt (ticksOwed_eq_zero_iff _).mp (not_not.mpr ht))⟩
  · have ht : (loadNext n s).phase = .transmitting := hphase
    exact ⟨_, e, rfl, ticksOwed_loadNext hphase hcount hn hlt,
      iff_of_false (by rw [ht]; decide) (mt (ticksOwed_eq_zero_iff _).mp (not_not.mpr ht))⟩
  · exact ⟨_, e, rfl, ticksOwed_lastIdle hphase hcount hlast, iff_of_true rfl ((ticksOwed_eq_zero_iff _).mpr (by simp))⟩

/-! ### A run of ticks -/

/-- `t` is where a transmission that goes on from `s` stands after `n` ticks. -/
structure SendingAfter (n : Nat) (s t : State) : Prop where
  run : runEvents (List.replicate n .tick) s = .next t
  inv : BlockInv t
  phase : t.phase = .transmitting
  decoder : sameDecoder s t
  length : t.txLen = s.txLen
  refused : t.refused = s.refused
  owed : ticksOwed t + n = ticksOwed s

theorem sameDecoder.trans {s t u : State} (h : sameDecoder s t) (h' : sameDecoder t u) : sameDecoder s u := by
  obtain ⟨hstate, hdp, hdone, hbuf⟩ := h
  obtain ⟨hstate', hdp', hdone', hbuf'⟩ := h'
  exact ⟨hstate'.trans hstate, hdp'.trans hdp, hdone'.trans hdone, fun i => (hbuf' i).trans (hbuf i)⟩

/-- A transmission goes on for as many ticks as are owed but one. -/
theorem exists_sendingAfter {n : Nat} {s : State} (h : BlockInv s) (hphase : s.phase = .transmitting) (hn : n < ticksOwed s) :
    ∃ t, SendingAfter n s t := by
  induction n with
  | zero => exact ⟨s, rfl, h, hphase, sameDecoder_of_eq rfl rfl rfl rfl rfl, rfl, rfl, rfl⟩
  | succ n ih =>
    obtain ⟨t, ht⟩ := ih (by omega)
    obtain ⟨u, hu, hrefused, howed, -⟩ :=
      eachTickPaysOneTickOwed t ht.inv (ht.inv.wholeBlock_of_transmitting ht.phase) ht.phase
    have hsum := ht.owed
    have huphase : u.phase = .transmitting := by
      by_contra hnot
      have := (ticksOwed_eq_zero_iff u).mpr hnot
      omega
    obtain ⟨hdec, hlen⟩ := exec_frozen ht.inv ht.phase hu huphase
    refine ⟨u, ?_, blockInv_exec ht.inv hu, huphase, ht.decoder.trans hdec, hlen.trans ht.length, hrefused.trans ht.refused, by omega⟩
    rw [List.replicate_succ', runEvents_append ht.run, runEvents_cons_next hu]
    rfl

/-- The falling edge with characters to send starts a transmission that owes ten ticks a character (R163, R166, R176). -/
theorem exists_transmissionStart {s : State} (x : Snapshot) (h : BlockInv s) (hmodel : s.model = .wholeBlock)
    (hphase : s.phase = .capturing) (hlen : txLength s ≠ 0) :
    ∃ t, exec (.wake false x) s = .next t ∧ BlockInv t ∧ t.phase = .transmitting ∧ (∀ i, t.readBuf i = s.readBuf i) ∧
      t.txLen.toNat = txLength s ∧ t.refused = s.refused ∧ ticksOwed t = 10 * txLength s := by
  have hnot : s.phase ≠ .transmitting := by simp [hphase]
  have he : exec (.wake false x) s = .next (startTransmit (txLength s) { s with busIrqEn := false }) := by
    rw [exec_wake_wholeBlock hmodel (h.busIrq.mpr hnot), wakeEffect_low_capturing hphase, fallingEdge_send hlen]
  refine ⟨_, he, blockInv_exec h he, rfl, fun i => rfl, toNat_ofNat_txLength s, rfl, ?_⟩
  rw [ticksOwed_transmitting rfl, startTransmit_txCount, startTransmit_txLen, startTransmit_ci, toNat_ofNat_txLength]
  show 9 + 1 + 10 * (txLength s - (0 + 1)) = _
  omega

/-- Settles O49: all but one of the ticks owed leave the block transmitting, and the last one leaves none owed. -/
theorem transmissionTakesTenTicksPerCharacter : Obligations.TransmissionTakesTenTicksPerCharacter := by
  intro s x h hmodel hphase hlen hrefused
  obtain ⟨t, he, hinv, htphase, -, -, htrefused, howed⟩ := exists_transmissionStart x h hmodel hphase hlen
  constructor
  · obtain ⟨u, hu⟩ := exists_sendingAfter (n := 10 * txLength s - 1) hinv htphase (by omega)
    obtain ⟨v, hv, hvrefused, hvowed, hvidle⟩ :=
      eachTickPaysOneTickOwed u hu.inv (hu.inv.wholeBlock_of_transmitting hu.phase) hu.phase
    have hsum := hu.owed
    have hidle : v.phase = .idle := hvidle.mpr (by omega)
    have hvnot : v.phase ≠ .transmitting := by simp [hidle]
    have hvinv := blockInv_exec hu.inv hv
    obtain ⟨-, -, htxd⟩ := hvinv.resting hvnot
    refine ⟨v, ?_, hidle, hvrefused.trans (hu.refused.trans (htrefused.trans hrefused)), hvnot,
      Bool.eq_false_iff.mpr fun ht => hvnot (hvinv.timer.mp ht), htxd⟩
    have hlast : 10 * txLength s = 10 * txLength s - 1 + 1 := by omega
    rw [runEvents_cons_next he, hlast, List.replicate_succ', runEvents_append hu.run, runEvents_cons_next hv]
    rfl
  · intro n hn
    obtain ⟨u, hu⟩ := exists_sendingAfter (n := n) hinv htphase (by omega)
    exact ⟨u, (runEvents_cons_next he).trans hu.run, hu.phase⟩

/-! ### The line -/

/-- What a tick puts on the line: the frame's next bit, or the idle level once the frame is out (R168 to R171). -/
theorem exec_tick_txd {s : State} (h : BlockInv s) (hphase : s.phase = .transmitting) :
    ∃ t, exec .tick s = .next t ∧
      t.txd = if s.txCount = 0 then true
        else (frameWord (Memory.get s.cfg.bufInit s.ci.toNat s.buf)).getLsbD (9 - s.txCount.toNat) := by
  rcases exec_tick_transmitting h hphase with ⟨hcount, e⟩ | ⟨n, hcount, -, -, e⟩ | ⟨hcount, -, e⟩
  · exact ⟨_, e, by rw [if_neg hcount, emitBit_txd_eq h hphase hcount]⟩
  · exact ⟨_, e, by rw [if_pos hcount]; rfl⟩
  · exact ⟨_, e, by rw [if_pos hcount]; rfl⟩

/-- The ticks owed say which bit of which character comes next (R176). -/
theorem next_bit_of_ticksOwed {s : State} {j k : Nat} (h : BlockInv s) (hphase : s.phase = .transmitting) (hk : k < 10)
    (howed : ticksOwed s + (10 * j + k) = 10 * s.txLen.toNat) :
    s.ci.toNat = j ∧ s.txCount.toNat = 9 - k := by
  have hsending := h.sending hphase
  have hcount := h.countRange
  rw [ticksOwed_transmitting hphase] at howed
  omega

/-- Settles O50: after 10·j + k ticks the next bit is bit k of character j, whose byte is still the one of the falling edge. -/
theorem lineCarriesTheReadingBitByBit : Obligations.LineCarriesTheReadingBitByBit := by
  intro s x j k h hmodel hphase hj hk
  obtain ⟨t, he, hinv, htphase, hbuf, hlen, -, howed⟩ := exists_transmissionStart x h hmodel hphase (by omega)
  obtain ⟨u, hu⟩ := exists_sendingAfter (n := 10 * j.val + k) hinv htphase (by omega)
  have hulen : u.txLen.toNat = txLength s := by rw [hu.length, hlen]
  obtain ⟨hci, hcount⟩ := next_bit_of_ticksOwed hu.inv hu.phase hk (by rw [hu.owed, howed, hulen])
  obtain ⟨v, hv, htxd⟩ := exec_tick_txd hu.inv hu.phase
  refine ⟨v, ?_, ?_⟩
  · rw [runEvents_cons_next he, List.replicate_succ', runEvents_append hu.run, runEvents_cons_next hv]
    rfl
  · obtain ⟨-, -, -, hubuf⟩ := hu.decoder
    have hbyte : Memory.get u.cfg.bufInit u.ci.toNat u.buf = s.readBuf j := by
      rw [hci]
      exact (hubuf j).trans (hbuf j)
    rw [htxd, hbyte]
    by_cases hlast : k = 9
    · have hzero : u.txCount = 0 := BitVec.eq_of_toNat_eq (by rw [hcount, hlast]; rfl)
      rw [if_pos hzero, hlast]
      rfl
    · have hpos : u.txCount ≠ 0 := by
        intro hzero
        rw [hzero] at hcount
        have hcount : 0 = 9 - k := hcount
        omega
      have hbit : 9 - u.txCount.toNat = k := by omega
      rw [if_neg hpos, hbit, frameWord_getLsbD _ (by omega)]

end Sys2Proof.Machine
end
